-- ==== Sys2Proof/Word.lean ====
section
/-! DEFINITION. The words, the payload arrays' type, the closed code sets and the two port bundles of CSH-FrameCodec.
Rules: 00_scope.md R6-R9, 10_state.md R25, R26, 20_memory.md R40, 30_encoding.md R65-R67. -/

namespace Sys2Proof

/-- A numeric operand, a numeric result or an addressing word: 32 bits (R6, R25, R26). -/
abbrev Word := BitVec 32

/-- A payload byte (R40). -/
abbrev Byte := BitVec 8

/-- A value as wide as a whole payload array: what MemRead assembles and MemWrite splits, n ≤ 8 bytes of it (R9, R41). -/
abbrev Wide := BitVec 64

/-- One payload array (R30, R40) as its bytes by index, in one canonical form (`Memory.wf`): indices strictly
rising, all below `payloadBytes`, no entry equal to `unlistedByte`. -/
abbrev Memory := List Host.Cell

/-- The capacity of a payload array, 8 bytes with indices 0 to 7 (R40). -/
def payloadBytes : Nat := 8

/-- What an index that is not listed reads as: a payload byte the host did not give is 0x00 (30_encoding.md R78),
an output byte no builder writes is driven 0 (00_scope.md R12). -/
def unlistedByte : Byte := 0

/-- The two fixed peers (R65). -/
inductive DeviceId where
  | sensorNode
  | host
deriving DecidableEq, Repr

/-- The message kinds, with the report value Unknown (R67). -/
inductive MessageKind where
  | status
  | control
  | distance
  | unknown
deriving DecidableEq, Repr

/-- The error kinds `out.err` can encode (30_encoding.md R66, 60_exceptions.md R200). -/
inductive ErrorKind where
  | noError
  | invalidMessage
  | invalidDestDeviceID
  | invalidSrcDeviceID
  | invalidStatus
  | invalidVL6180
  | invalidCtrl
  | invalidBuffer
deriving DecidableEq, Repr

/-- The fields of an addressing word, DEC's triple (00_scope.md R11, 30_encoding.md R63). -/
structure Header where
  src  : BitVec 3
  dst  : BitVec 3
  kind : BitVec 5
deriving DecidableEq, Repr

/-- The input ports of one transaction (10_state.md R25). -/
structure Inputs where
  op   : BitVec 4
  word : Word
  f0   : Word
  f1   : Word
  f2   : Word
  f3   : Word
  b0   : Bool
  b1   : Bool
  p    : Memory
  len  : BitVec 4
deriving DecidableEq, Repr

/-- Every input port at 0: what a transaction presents on the ports its line does not list (30_encoding.md R78,
95_test_vectors.md section 3 "inputs not listed are 0"). -/
def Inputs.zero : Inputs :=
  { op := 0, word := 0, f0 := 0, f1 := 0, f2 := 0, f3 := 0, b0 := false, b1 := false, p := [], len := 0 }

/-- The output ports of one transaction (10_state.md R26). -/
structure Outputs where
  word : Word
  p    : Memory
  len  : BitVec 4
  err  : BitVec 3
  src  : BitVec 3
  dst  : BitVec 3
  kind : BitVec 8
  f0   : Word
  f1   : Word
  f2   : Word
  f3   : Word
  b0   : Bool
  b1   : Bool
deriving DecidableEq, Repr

/-- Every output port driven 0, the value of each port an operation's rule does not name (00_scope.md R12). -/
def Outputs.zero : Outputs :=
  { word := 0, p := [], len := 0, err := 0, src := 0, dst := 0, kind := 0,
    f0 := 0, f1 := 0, f2 := 0, f3 := 0, b0 := false, b1 := false }

end Sys2Proof
end

