-- ==== Sys2Proof/Config.lean ====
section
/-! DEFINITION. What one unit fixes: the parameter DIST_WORD_OFFSET and the content of the constant table.
Rules: 00_scope.md R6, 30_encoding.md R71, 10_state.md R23. -/

namespace Sys2Proof

/-- The two values the parameter DIST_WORD_OFFSET may have (R6, R71). -/
inductive DistWordOffset where
  | two
  | four
deriving DecidableEq, Repr

/-- The parameters of one unit; DIST_WORD_OFFSET is the only one (R6). -/
structure Config where
  distWordOffset : DistWordOffset
deriving DecidableEq, Repr

/-- The default parameter, DIST_WORD_OFFSET = 2 (R6). -/
def Config.default : Config := { distWordOffset := .two }

/-- The hardwired content of VALID_KINDS: the wire codes of Status, Control and Distance (10_state.md R23). -/
def Config.validKinds : List (BitVec 5) := [0, 1, 2]

end Sys2Proof
end

