-- ==== Sys2Proof/Syntax.lean ====
section
/-! DEFINITION. The nine operations as a transaction writes them (30_encoding.md R78): a mnemonic of
spec/opcode_table.json with the values of the input ports its line lists. Rules: 00_scope.md R3, 30_encoding.md R62, R78. -/

namespace Sys2Proof

/-- One constructor for each row of spec/opcode_table.json, its operands in the order of R78. -/
inductive Instr where
  /-- ENCODE: `in.f0` source, `in.f1` destination, `in.f2` kind (R100). -/
  | encode (source destination kind : Word)
  /-- DECODE: `in.word` (R101). -/
  | decode (word : Word)
  /-- IDENTIFY: `in.word` (R120). -/
  | identify (word : Word)
  /-- BUILD_STATUS: `in.f0` uptime ms, `in.b0` loopback, `in.f1` CPU temperature, `in.f2` board mV, `in.f3` ADC mV (R140). -/
  | buildStatus (uptime : Word) (loopback : Bool) (temperature voltage adc : Word)
  /-- PARSE_STATUS: `in.p[0..7]` and the size hint `in.len`, which is ignored (R150, R27). -/
  | parseStatus (p : Memory) (len : BitVec 4)
  /-- BUILD_CONTROL: `in.b0` reset, `in.b1` CAN-loopback (R160). -/
  | buildControl (reset canLoopback : Bool)
  /-- PARSE_CONTROL: `in.p[0]` and the size hint `in.len`, which is ignored (R170, R27). -/
  | parseControl (p : Memory) (len : BitVec 4)
  /-- BUILD_DISTANCE: `in.f0` distance mm, `in.f1` lux, `in.b0` over-range, `in.b1` sensor-OK (R180). -/
  | buildDistance (distance lux : Word) (overRange sensorOk : Bool)
  /-- PARSE_DISTANCE: `in.p` and the size hint `in.len`, which is ignored (R190, R27). -/
  | parseDistance (p : Memory) (len : BitVec 4)
deriving DecidableEq, Repr

end Sys2Proof
end

