-- ==== Sys2Proof/WellFormed.lean ====
section
/-! DEFINITION. Well-formed terms: a payload array in canonical form, an instruction whose payload is one, a
transaction a host may present. Rules: 20_memory.md R40, 70_reset_and_hazards.md R236, R238. -/

namespace Sys2Proof

/-- The canonical form from index `lo` on: indices rise strictly and stay below 8, no entry reads as an unlisted one. -/
def Memory.wfFrom : Nat → Memory → Bool
  | _, [] => true
  | lo, (a, b) :: m => decide (lo ≤ a) && decide (a < payloadBytes) && decide (b ≠ unlistedByte) && Memory.wfFrom (a + 1) m

/-- The one canonical form of a payload array: equal arrays are equal lists (R40; log 7). -/
def Memory.wf (m : Memory) : Bool := Memory.wfFrom 0 m

/-- An instruction is well formed when the payload it carries is in canonical form; every other operand is as wide as
its port by its type, and no operation restricts its operands (30_encoding.md R75). -/
def Instr.wf : Instr → Bool
  | .encode _ _ _ => true
  | .decode _ => true
  | .identify _ => true
  | .buildStatus _ _ _ _ _ => true
  | .parseStatus p _ => Memory.wf p
  | .buildControl _ _ => true
  | .parseControl p _ => Memory.wf p
  | .buildDistance _ _ _ _ => true
  | .parseDistance p _ => Memory.wf p

/-- A transaction a host may present: no reserved `op` (R238) and a payload of bytes 0 to 7 (R236, R40). -/
def Inputs.wf (t : Inputs) : Bool := decide (t.op.toNat ≤ 8) && Memory.wf t.p

end Sys2Proof
end

