-- ==== Sys2Proof/Decode.lean ====
section
/-! DEFINITION. The operation select and the operand slots: from the input ports to an instruction, and back.
Rules: 30_encoding.md R60, R61, R62, R77, R78. -/

namespace Sys2Proof

/-- Why a transaction is not an instruction. -/
inductive Reject where
  /-- `op` is one of the reserved values 0x9 to 0xF (R61). -/
  | reservedOp (op : BitVec 4)
deriving DecidableEq, Repr

/-- The instruction a transaction presents: all 4 bits of `op` select it (R60), and its operands are the input
slots R62 lists for it (with the ignored hint `in.len` for the parsers, R78). Every other port is ignored. -/
def decode (t : Inputs) : Except Reject Instr :=
  match t.op.toNat with
  | 0 => .ok (.encode t.f0 t.f1 t.f2)
  | 1 => .ok (.decode t.word)
  | 2 => .ok (.identify t.word)
  | 3 => .ok (.buildStatus t.f0 t.b0 t.f1 t.f2 t.f3)
  | 4 => .ok (.parseStatus t.p t.len)
  | 5 => .ok (.buildControl t.b0 t.b1)
  | 6 => .ok (.parseControl t.p t.len)
  | 7 => .ok (.buildDistance t.f0 t.f1 t.b0 t.b1)
  | 8 => .ok (.parseDistance t.p t.len)
  | _ => .error (.reservedOp t.op)

/-- The `op` value of an instruction, the table of R60. -/
def opOf : Instr → BitVec 4
  | .encode _ _ _ => 0x0
  | .decode _ => 0x1
  | .identify _ => 0x2
  | .buildStatus _ _ _ _ _ => 0x3
  | .parseStatus _ _ => 0x4
  | .buildControl _ _ => 0x5
  | .parseControl _ _ => 0x6
  | .buildDistance _ _ _ _ => 0x7
  | .parseDistance _ _ => 0x8

/-- A transaction's encoding: the `op` value of R60 together with the port values its line lists, every other port 0 (R78). -/
def encode (i : Instr) : Inputs :=
  match i with
  | .encode source destination kind =>
    { Inputs.zero with op := opOf i, f0 := source, f1 := destination, f2 := kind }
  | .decode word => { Inputs.zero with op := opOf i, word := word }
  | .identify word => { Inputs.zero with op := opOf i, word := word }
  | .buildStatus uptime loopback temperature voltage adc =>
    { Inputs.zero with op := opOf i, f0 := uptime, b0 := loopback, f1 := temperature, f2 := voltage, f3 := adc }
  | .parseStatus p len => { Inputs.zero with op := opOf i, p := p, len := len }
  | .buildControl reset canLoopback => { Inputs.zero with op := opOf i, b0 := reset, b1 := canLoopback }
  | .parseControl p len => { Inputs.zero with op := opOf i, p := p, len := len }
  | .buildDistance distance lux overRange sensorOk =>
    { Inputs.zero with op := opOf i, f0 := distance, f1 := lux, b0 := overRange, b1 := sensorOk }
  | .parseDistance p len => { Inputs.zero with op := opOf i, p := p, len := len }

/-- A transaction with only the ports R78 lists for its `op`, every other operand port at 0: the slots R62 reads, with
the parsers' ignored hint `in.len`. Written from the tables, beside `decode` and `encode`. -/
def listedInputs (t : Inputs) : Inputs :=
  match t.op.toNat with
  | 0 => { Inputs.zero with op := t.op, f0 := t.f0, f1 := t.f1, f2 := t.f2 }
  | 1 => { Inputs.zero with op := t.op, word := t.word }
  | 2 => { Inputs.zero with op := t.op, word := t.word }
  | 3 => { Inputs.zero with op := t.op, f0 := t.f0, f1 := t.f1, f2 := t.f2, f3 := t.f3, b0 := t.b0 }
  | 4 => { Inputs.zero with op := t.op, p := t.p, len := t.len }
  | 5 => { Inputs.zero with op := t.op, b0 := t.b0, b1 := t.b1 }
  | 6 => { Inputs.zero with op := t.op, p := t.p, len := t.len }
  | 7 => { Inputs.zero with op := t.op, f0 := t.f0, f1 := t.f1, b0 := t.b0, b1 := t.b1 }
  | 8 => { Inputs.zero with op := t.op, p := t.p, len := t.len }
  | _ => { Inputs.zero with op := t.op }

/-- The transaction that a row of spec/opcode_table.json numbers by `nbits` bits `w`: `op` is bits 3:0 of it, which are
all the bits the table gives (R60, mask 0xF), and every operand port is 0 (DESIGN CHOICE, log 9). -/
def inputsOfTableWord (nbits w : Nat) : Inputs :=
  { Inputs.zero with op := BitVec.ofNat 4 (w % 2 ^ nbits) }

/-- The instruction the decoder reads from a word numbered as spec/opcode_table.json numbers it (log 9). -/
def decodeTableWord (nbits w : Nat) : Option Instr :=
  match decode (inputsOfTableWord nbits w) with
  | .ok i => some i
  | .error _ => none

end Sys2Proof
end

