-- ==== Sys2Proof/Machine/State.lean ====
section
/-! DEFINITION. The machine's state as plain data, its reset, and why a step can stop.
Rules: 00_scope.md R13, 10_state.md R20-R30, 70_reset_and_hazards.md R230-R232. -/

namespace Sys2Proof.Machine

/-- Why the machine stops with a fault. The spec gives the unit none (00_scope.md R13, 60_exceptions.md R203). -/
inductive Fault where
  /-- A payload access outside indices 0 to 7 (20_memory.md R47: these are the only addresses). Raised by `memRead` and
  `memWrite`; no operation makes such an access. Safe: the machine stops (log 8). -/
  | payloadIndex (index : Nat)
deriving DecidableEq, Repr

/-- Why a step has no meaning. -/
inductive Refusal where
  /-- An instruction without a meaning in this model, raised by a refused arm of `exec`. Safe: the machine stops. -/
  | notModelled (mnemonic : String)
  /-- A transaction with a reserved `op`, 0x9 to 0xF, raised by `step`: "A model refuses a transaction with such an `op`"
  (30_encoding.md R61). Safe: the machine stops (log 6). -/
  | reservedOp (op : BitVec 4)
deriving DecidableEq, Repr

/-- The constant table, the unit's parameter and the ports of the current transaction. The unit stores nothing else:
no registers, pc, flags, modes, accumulators, pending events or reservation (10_state.md R20-R24). -/
structure State where
  /-- VALID_KINDS, read-only and hardwired (R23; log 5). -/
  validKinds : List (BitVec 5)
  /-- The parameter DIST_WORD_OFFSET (00_scope.md R6; log 4). -/
  cfg : Config
  /-- The input ports, as the host presents them (R25; log 2). -/
  inp : Inputs
  /-- The output ports, as the last transaction drove them (R26; log 1). -/
  out : Outputs
deriving DecidableEq, Repr

/-- The unit from power-up, before the host presents a transaction: the table holds {0, 1, 2} (R230), the parameter its
default (R6); the ports' values are the model's (DESIGN CHOICE, log 3): inputs 0, outputs what the unit drives for them. -/
def State.reset : State :=
  { validKinds := Config.validKinds, cfg := Config.default, inp := Inputs.zero, out := Outputs.zero }

/-- The state with its output ports driven. -/
def State.drive (s : State) (o : Outputs) : State := { s with out := o }

/-- The state with the input ports of one transaction presented together (70_reset_and_hazards.md R233). -/
def State.present (s : State) (t : Inputs) : State := { s with inp := t }

end Sys2Proof.Machine
end

