-- ==== Sys2Proof/Machine/Ops.lean ====
section
/-! DEFINITION. The operations every meaning is written over: reading and writing the payload arrays, and completing a
transaction. Rules: 00_scope.md R9, R10, R12, 20_memory.md R40, R41, 60_exceptions.md R203.
Taking an exception has no operation here: "The block has no traps" (R203). A failure is a code on `out.err`, which an
operation drives as it drives any other output (R10). -/

namespace Sys2Proof

/-- The byte at an index of a payload array. -/
def Memory.read : Memory → Nat → Byte
  | [], _ => unlistedByte
  | (a, b) :: m, i => if i = a then b else Memory.read m i

/-- The payload array with one byte replaced, in canonical form when `m` is. -/
def Memory.write : Memory → Nat → Byte → Memory
  | [], i, v => if v = unlistedByte then [] else [(i, v)]
  | (a, b) :: m, i, v =>
    if i < a then (if v = unlistedByte then (a, b) :: m else (i, v) :: (a, b) :: m)
    else if i = a then (if v = unlistedByte then m else (i, v) :: m)
    else (a, b) :: Memory.write m i v

/-- The `n`-byte value at indices `i` to `i+n-1`, least significant byte first (R41). -/
def Memory.readLE (m : Memory) : Nat → Nat → Wide
  | _, 0 => 0
  | i, n + 1 => (Memory.read m i).setWidth 64 ||| (Memory.readLE m (i + 1) n <<< 8)

/-- The payload array with the low `n` bytes of `v` at indices `i` to `i+n-1`, least significant byte first (R41). -/
def Memory.writeLE (m : Memory) : Nat → Nat → Wide → Memory
  | _, 0, _ => m
  | i, n + 1, v => Memory.writeLE (Memory.write m i (v.setWidth 8)) (i + 1) n (v >>> 8)

/-- A payload from its bytes, byte 0 first (30_encoding.md R78, 70_reset_and_hazards.md R236); bytes past the capacity have
no port and are dropped, missing ones read 0x00. -/
def Memory.ofBytesFrom : Nat → List Byte → Memory
  | _, [] => []
  | i, b :: bs => if i < payloadBytes then Memory.write (Memory.ofBytesFrom (i + 1) bs) i b else []

/-- The payload `[p0 p1 ...]` of R78. -/
def payloadOfBytes (bs : List Byte) : Memory := Memory.ofBytesFrom 0 bs

end Sys2Proof

namespace Sys2Proof.Machine

/-- MemRead(i, n): the n-byte unsigned value at index `i` of a received payload, little-endian (R9, R41). -/
def memRead (m : Memory) (i n : Nat) : Except Fault Wide :=
  if i + n ≤ payloadBytes then .ok (Memory.readLE m i n) else .error (.payloadIndex (i + n))

/-- MemWrite(i, n, v): the n low bytes of `v` driven at index `i` of the output payload, little-endian (R9, R41). -/
def memWrite (m : Memory) (i n : Nat) (v : Wide) : Except Fault Memory :=
  if i + n ≤ payloadBytes then .ok (Memory.writeLE m i n v) else .error (.payloadIndex (i + n))

/-- A transaction's end: the outputs an operation computed are driven all at once (20_memory.md R46), nothing else of the
unit changes (10_state.md R24). -/
def State.complete (s : State) (r : Except Fault Outputs) : Host.Outcome State Fault Refusal :=
  match r with
  | .ok o => .next (s.drive o)
  | .error f => .fault f

/-- A rejected transaction is refused under the name of its reason (30_encoding.md R61). -/
def refusalOf : Reject → Refusal
  | .reservedOp op => .reservedOp op

end Sys2Proof.Machine
end

