-- ==== Sys2Proof/Machine/Operands.lean ====
section
/-! DEFINITION. The codes, the header word and the packed payload words: every packing and every extraction of a field.
Packing takes an operand's low bits (30_encoding.md R73), extracting zero-extends (R74).
Rules: 00_scope.md R11, 30_encoding.md R63-R74, 42_status.md R144. -/

namespace Sys2Proof.Machine

/-- A device id's wire code (R65). -/
def deviceCode : DeviceId → BitVec 3
  | .sensorNode => 0
  | .host => 1

/-- A message kind's code: the wire codes, and 254 for the report value Unknown (R67). -/
def kindCode : MessageKind → BitVec 8
  | .status => 0
  | .control => 1
  | .distance => 2
  | .unknown => 254

/-- ENC(s, d, k): source in bits 2:0, destination in 5:3, kind in 10:6, bits 31:11 zero, each operand truncated to its
field (00_scope.md R11, R63, 40_addressing_codec.md R100). -/
def enc (s d k : Word) : Word :=
  (k.setWidth 5 ++ d.setWidth 3 ++ s.setWidth 3 : BitVec 11).setWidth 32

/-- DEC(w): the three fields of an addressing word; bits 31:11 are not read (00_scope.md R11, R63, R64). -/
def dec (w : Word) : Header :=
  { src := w.extractLsb' 0 3, dst := w.extractLsb' 3 3, kind := w.extractLsb' 6 5 }

/-- The header word of a builder, made with ENC like every header (00_scope.md R11, R68, R104). -/
def headerWord (source destination : DeviceId) (kind : MessageKind) : Word :=
  enc ((deviceCode source).setWidth 32) ((deviceCode destination).setWidth 32) ((kindCode kind).setWidth 32)

/-- The kind IDENTIFY reports: the decoded kind, or Unknown for a kind outside the table (41_registry_dispatch.md R120). -/
def reportedKind (validKinds : List (BitVec 5)) (k : BitVec 5) : BitVec 8 :=
  if k ∈ validKinds then k.setWidth 8 else kindCode .unknown

/-- A flag as a 32-bit number, `zext_32` of a 1-bit port (R8). -/
def flagWord (b : Bool) : Word := (BitVec.ofBool b).setWidth 32

/-- W0 of the Status payload: uptime in bits 23:0, loopback in 24, temperature in 31:25 (R69, R72). -/
def statusWord (uptime : Word) (loopback : Bool) (temperature : Word) : Word :=
  (uptime.setWidth 24).setWidth 32 ||| (flagWord loopback <<< 24) ||| ((temperature.setWidth 7).setWidth 32 <<< 25)

/-- W1 of the Distance payload: lux in bits 29:0, over-range in 30, sensor-OK in 31 (R71, R72). -/
def distanceWord (lux : Word) (overRange sensorOk : Bool) : Word :=
  (lux.setWidth 30).setWidth 32 ||| (flagWord overRange <<< 30) ||| (flagWord sensorOk <<< 31)

/-- The Control byte: reset in bit 0, CAN-loopback in bit 1, bits 7:2 zero (R70). -/
def controlByte (reset canLoopback : Bool) : Byte :=
  (BitVec.ofBool reset).setWidth 8 ||| ((BitVec.ofBool canLoopback).setWidth 8 <<< 1)

/-- `zext_32` of bits lo+w-1 down to lo of a value: how every numeric field is extracted (R74). -/
def fieldWord (lo w : Nat) (v : Wide) : Word := (v.extractLsb' lo w).setWidth 32

/-- The byte offset of the lux/flags word, DIST_WORD_OFFSET (00_scope.md R6). -/
def offsetOf : DistWordOffset → Nat
  | .two => 2
  | .four => 4

/-- DIST_LEN, the length of a Distance payload: DIST_WORD_OFFSET + 4 (00_scope.md R6, R71). -/
def distLen (o : DistWordOffset) : Nat := offsetOf o + 4

end Sys2Proof.Machine
end

