-- ==== Sys2Proof/Machine/Flags.lean ====
section
/-! DEFINITION. The unit has no flags (10_state.md R22); its one status result is `out.err`. This file holds the error
codes and every check that computes one. Rules: 30_encoding.md R66, R75, 41_registry_dispatch.md R120, 60_exceptions.md R200. -/

namespace Sys2Proof.Machine

/-- The code of an error kind on `out.err` (R66). -/
def errorCode : ErrorKind → BitVec 3
  | .noError => 0
  | .invalidMessage => 1
  | .invalidDestDeviceID => 2
  | .invalidSrcDeviceID => 3
  | .invalidStatus => 4
  | .invalidVL6180 => 5
  | .invalidCtrl => 6
  | .invalidBuffer => 7

/-- One check of a pseudocode's sequence: "if c then e <- E" (60_exceptions.md R201: a later check overwrites). -/
def check (fails : Bool) (code e : ErrorKind) : ErrorKind := if fails then code else e

/-- IDENTIFY's device-id checks, in R120's order, so that the last one that fires wins. -/
def deviceIdError (h : Header) : ErrorKind :=
  let e := ErrorKind.noError
  let e := check (decide (h.src > 1)) .invalidSrcDeviceID e
  let e := check (decide (h.dst > 1)) .invalidDestDeviceID e
  check (decide (h.src = h.dst)) .invalidSrcDeviceID e

/-- IDENTIFY's error: the id checks run only for a kind in the table (R120). -/
def identifyError (validKinds : List (BitVec 5)) (h : Header) : ErrorKind :=
  if h.kind ∈ validKinds then deviceIdError h else .invalidMessage

/-- BUILD_STATUS's range checks on the full 32-bit operands (R75, 42_status.md R140). -/
def statusError (uptime voltage adc : Word) : ErrorKind :=
  let e := ErrorKind.noError
  let e := check (decide (uptime > 16777215)) .invalidStatus e
  let e := check (decide (voltage > 4000)) .invalidStatus e
  check (decide (adc > 16000)) .invalidStatus e

/-- BUILD_DISTANCE's range checks on the full 32-bit operands (R75, 44_distance.md R180, R184). -/
def distanceError (distance lux : Word) : ErrorKind :=
  let e := ErrorKind.noError
  let e := check (decide (distance > 300)) .invalidVL6180 e
  check (decide (lux > 100000)) .invalidVL6180 e

end Sys2Proof.Machine
end

