-- ==== Sys2Proof/Machine/AddressingCodec.lean ====
section
/-! DEFINITION. ENCODE and DECODE (40_addressing_codec.md R100, R101). -/

namespace Sys2Proof.Machine

/-- ENCODE packs the three operands, validates nothing and reports NoError (R100). -/
def execEncode (source destination kind : Word) (s : State) : Host.Outcome State Fault Refusal :=
  s.complete (.ok { Outputs.zero with word := enc source destination kind, err := errorCode .noError })

/-- DECODE unpacks the three fields, validates nothing and reports NoError (R101). -/
def execDecode (word : Word) (s : State) : Host.Outcome State Fault Refusal :=
  let h := dec word
  s.complete (.ok { Outputs.zero with
    src := h.src, dst := h.dst, kind := h.kind.setWidth 8, err := errorCode .noError })

end Sys2Proof.Machine
end

