-- ==== Sys2Proof/Machine/Control.lean ====
section
/-! DEFINITION. BUILD_CONTROL and PARSE_CONTROL (43_control.md R160, R170). -/

namespace Sys2Proof.Machine

/-- BUILD_CONTROL: header Host → SensorNode, one byte with the two flags, length 1; it always succeeds (R160). -/
def execBuildControl (reset canLoopback : Bool) (s : State) : Host.Outcome State Fault Refusal :=
  s.complete (do
    let p ← memWrite [] 0 1 ((controlByte reset canLoopback).setWidth 64)
    return { Outputs.zero with
      word := headerWord .host .sensorNode .control, p := p, len := 1, err := errorCode .noError })

/-- PARSE_CONTROL reads bits 0 and 1 of byte 0; bits 7:2, the other bytes and `in.len` are ignored (R170, R27). -/
def execParseControl (p : Memory) (_len : BitVec 4) (s : State) : Host.Outcome State Fault Refusal :=
  s.complete (do
    let b ← memRead p 0 1
    return { Outputs.zero with b0 := b.getLsbD 0, b1 := b.getLsbD 1, err := errorCode .noError })

end Sys2Proof.Machine
end

