-- ==== Sys2Proof/Machine/Distance.lean ====
section
/-! DEFINITION. BUILD_DISTANCE and PARSE_DISTANCE (44_distance.md R180, R190). O is the unit's DIST_WORD_OFFSET. -/

namespace Sys2Proof.Machine

/-- The DIST_LEN payload bytes of a Distance frame, from the truncated operands and O alone (30_encoding.md R71, R181). -/
def distancePayload (o : DistWordOffset) (distance lux : Word) (overRange sensorOk : Bool) : Except Fault Memory := do
  let m ← memWrite [] 0 2 (distance.setWidth 64)
  let m ← if offsetOf o = 4 then memWrite m 2 2 0 else .ok m
  memWrite m (offsetOf o) 4 ((distanceWord lux overRange sensorOk).setWidth 64)

/-- BUILD_DISTANCE: header SensorNode → Host, the payload, length DIST_LEN and the advisory code of the range checks
(R180); the frame does not depend on the checks (R181). -/
def execBuildDistance (distance lux : Word) (overRange sensorOk : Bool) (s : State) :
    Host.Outcome State Fault Refusal :=
  s.complete (do
    let p ← distancePayload s.cfg.distWordOffset distance lux overRange sensorOk
    return { Outputs.zero with
      word := headerWord .sensorNode .host .distance, p := p,
      len := BitVec.ofNat 4 (distLen s.cfg.distWordOffset), err := errorCode (distanceError distance lux) })

/-- PARSE_DISTANCE unpacks the same layout; nothing is validated, and every other byte and `in.len` are ignored (R190, R27). -/
def execParseDistance (p : Memory) (_len : BitVec 4) (s : State) : Host.Outcome State Fault Refusal :=
  s.complete (do
    let distance ← memRead p 0 2
    let w1 ← memRead p (offsetOf s.cfg.distWordOffset) 4
    return { Outputs.zero with
      f0 := fieldWord 0 16 distance, f1 := fieldWord 0 30 w1,
      b0 := w1.getLsbD 30, b1 := w1.getLsbD 31, err := errorCode .noError })

end Sys2Proof.Machine
end

