-- ==== Sys2Proof/Machine/Registry.lean ====
section
/-! DEFINITION. IDENTIFY (41_registry_dispatch.md R120). -/

namespace Sys2Proof.Machine

/-- IDENTIFY decodes a word, checks its kind against VALID_KINDS and then its ids; the fields are driven even on failure,
the kind as 254 for a kind outside the table (R120). -/
def execIdentify (word : Word) (s : State) : Host.Outcome State Fault Refusal :=
  let h := dec word
  s.complete (.ok { Outputs.zero with
    src := h.src, dst := h.dst, kind := reportedKind s.validKinds h.kind,
    err := errorCode (identifyError s.validKinds h) })

end Sys2Proof.Machine
end

