-- ==== Sys2Proof/Machine/Status.lean ====
section
/-! DEFINITION. BUILD_STATUS and PARSE_STATUS (42_status.md R140, R150). -/

namespace Sys2Proof.Machine

/-- The 8 payload bytes of a Status frame, from the truncated operands alone (30_encoding.md R69, R141). -/
def statusPayload (uptime : Word) (loopback : Bool) (temperature voltage adc : Word) : Except Fault Memory := do
  let m ← memWrite [] 0 4 ((statusWord uptime loopback temperature).setWidth 64)
  let m ← memWrite m 4 2 (voltage.setWidth 64)
  memWrite m 6 2 (adc.setWidth 64)

/-- BUILD_STATUS: header Host → SensorNode, the payload, length 8 and the advisory code of the range checks (R140); the
frame does not depend on the checks (R141). -/
def execBuildStatus (uptime : Word) (loopback : Bool) (temperature voltage adc : Word) (s : State) :
    Host.Outcome State Fault Refusal :=
  s.complete (do
    let p ← statusPayload uptime loopback temperature voltage adc
    return { Outputs.zero with
      word := headerWord .host .sensorNode .status, p := p, len := 8,
      err := errorCode (statusError uptime voltage adc) })

/-- PARSE_STATUS reads the five fields back verbatim; nothing is validated and `in.len` is not read (R150, R27). -/
def execParseStatus (p : Memory) (_len : BitVec 4) (s : State) : Host.Outcome State Fault Refusal :=
  s.complete (do
    let w0 ← memRead p 0 4
    let voltage ← memRead p 4 2
    let adc ← memRead p 6 2
    return { Outputs.zero with
      f0 := fieldWord 0 24 w0, b0 := w0.getLsbD 24, f1 := fieldWord 25 7 w0,
      f2 := fieldWord 0 16 voltage, f3 := fieldWord 0 16 adc, err := errorCode .noError })

end Sys2Proof.Machine
end

