-- ==== Sys2Proof/Machine/Dispatch.lean ====
section
/-! DEFINITION. One arm for each operation of spec/opcode_table.json (00_scope.md R3, 30_encoding.md R60). -/

namespace Sys2Proof.Machine

def exec (i : Instr) (s : State) : Host.Outcome State Fault Refusal :=
  match i with
  | .encode source destination kind => Sys2Proof.Machine.execEncode source destination kind s
  | .decode word => Sys2Proof.Machine.execDecode word s
  | .identify word => Sys2Proof.Machine.execIdentify word s
  | .buildStatus uptime loopback temperature voltage adc => Sys2Proof.Machine.execBuildStatus uptime loopback temperature voltage adc s
  | .parseStatus p len => Sys2Proof.Machine.execParseStatus p len s
  | .buildControl reset canLoopback => Sys2Proof.Machine.execBuildControl reset canLoopback s
  | .parseControl p len => Sys2Proof.Machine.execParseControl p len s
  | .buildDistance distance lux overRange sensorOk => Sys2Proof.Machine.execBuildDistance distance lux overRange sensorOk s
  | .parseDistance p len => Sys2Proof.Machine.execParseDistance p len s

end Sys2Proof.Machine
end

