-- ==== Sys2Proof/Machine/Step.lean ====
section
/-! DEFINITION. One step is one transaction: sample the input ports, run the operation they select, drive the outputs.
Rules: 00_scope.md R2, R13, 20_memory.md R46, 30_encoding.md R61. -/

namespace Sys2Proof.Machine

/-- One transaction on the presented inputs (R2, R46). The inputs stay presented; a reserved `op` is refused (R61). -/
def step (s : State) : Host.Outcome State Fault Refusal :=
  match decode s.inp with
  | .ok i => exec i s
  | .error r => .refused (refusalOf r)

/-- The state with the instruction of a table row on the input ports, its operand ports 0, so that the next step runs it
(log 9, 10). -/
def State.withFetchWord (s : State) (nbits w : Nat) : State := s.present (inputsOfTableWord nbits w)

end Sys2Proof.Machine
end

