-- ==== Sys2Proof/Machine/Transactions.lean ====
section
/-! DEFINITION. The host's side of the interface, beside the unit's step: presenting transactions, a sequence of them, the
wire frame, dispatch after IDENTIFY, and several units. The unit enforces none of the host's duties (log 13).
Rules: 00_scope.md R4, R13, 10_state.md R21, 41_registry_dispatch.md R123, 60_exceptions.md R214,
70_reset_and_hazards.md R233-R238. -/

namespace Sys2Proof.Machine

/-- The outputs of a completed transaction, if it completed. -/
def outputsOf : Host.Outcome State Fault Refusal → Option Outputs
  | .next t => some t.out
  | .fault _ => none
  | .refused _ => none

/-- One transaction: the host presents all its inputs together, the unit evaluates them (R233, R13). -/
def transact (s : State) (t : Inputs) : Host.Outcome State Fault Refusal := step (s.present t)

/-- A sequence of host transactions on one unit with each one's outputs, as the programs of 95_test_vectors.md section 3. -/
def runTransactions : State → List Inputs → Host.Outcome (State × List Outputs) Fault Refusal
  | s, [] => .next (s, [])
  | s, t :: ts =>
    match transact s t with
    | .next s' =>
      match runTransactions s' ts with
      | .next (s'', os) => .next (s'', s'.out :: os)
      | .fault f => .fault f
      | .refused r => .refused r
    | .fault f => .fault f
    | .refused r => .refused r

/-- The wire frame: an addressing word, up to 8 payload bytes and an explicit length (00_scope.md R4, R237). -/
structure Frame where
  word    : Word
  payload : List Byte
  len     : Nat
deriving DecidableEq, Repr

/-- The frame a host transmits after a builder: `out.word`, exactly `out.p[0 .. out.len-1]`, and `out.len` (R237). -/
def frameOf (o : Outputs) : Frame :=
  { word := o.word, payload := (List.range o.len.toNat).map (Memory.read o.p), len := o.len.toNat }

/-- What a host that needs strict rejection transmits: nothing unless `out.err` is NoError (R235). -/
def strictFrame (o : Outputs) : Option Frame := if o.err = errorCode .noError then some (frameOf o) else none

/-- The parser the host issues after IDENTIFY, on `out.err` = NoError only: 0 → PARSE_STATUS, 1 → PARSE_CONTROL,
2 → PARSE_DISTANCE (R123, R234). -/
def dispatchParser (o : Outputs) (p : Memory) (len : BitVec 4) : Option Instr :=
  if o.err = errorCode .noError then
    if o.kind = kindCode .status then some (.parseStatus p len)
    else if o.kind = kindCode .control then some (.parseControl p len)
    else if o.kind = kindCode .distance then some (.parseDistance p len)
    else none
  else none

/-- The transactions with which a host receives a frame: IDENTIFY, then the parser it names as a separate transaction on
the received payload (30_encoding.md R79, R123, R234); the outputs of both, or IDENTIFY's alone when the frame is not
dispatched. -/
def receiveFrame (s : State) (f : Frame) : Host.Outcome (State × List Outputs) Fault Refusal :=
  match transact s (encode (.identify f.word)) with
  | .next s' =>
    match dispatchParser s'.out (payloadOfBytes f.payload) (BitVec.ofNat 4 f.len) with
    | none => .next (s', [s'.out])
    | some i =>
      match transact s' (encode i) with
      | .next s'' => .next (s'', [s'.out, s''.out])
      | .fault r => .fault r
      | .refused r => .refused r
  | .fault r => .fault r
  | .refused r => .refused r

/-- Several units, of which one performs one transaction; an index with no unit changes nothing (60_exceptions.md R214;
log 12). -/
def transactAt : List State → Nat → Inputs → Host.Outcome (List State) Fault Refusal
  | [], _, _ => .next []
  | s :: units, 0, t =>
    match transact s t with
    | .next s' => .next (s' :: units)
    | .fault f => .fault f
    | .refused r => .refused r
  | s :: units, n + 1, t =>
    match transactAt units n t with
    | .next units' => .next (s :: units')
    | .fault f => .fault f
    | .refused r => .refused r

end Sys2Proof.Machine
end

