-- ==== Sys2Proof/Safety.lean ====
section
/-! DEFINITION. What counts as a safe state and a safe step, in the terms the statements use.
Rules: 00_scope.md R12, R13, 10_state.md R23, 30_encoding.md R64, R66, R67, R76. -/

namespace Sys2Proof.Machine

/-- The constant table holds what it is hardwired to hold (10_state.md R23). -/
abbrev State.TableHardwired (s : State) : Prop := s.validKinds = Config.validKinds

/-- What every transaction's outputs satisfy, whichever operation drove them. -/
structure OutputsSound (o : Outputs) : Prop where
  /-- the output payload is in canonical form (R40) -/
  payload_wf : Memory.wf o.p = true
  /-- "A length never exceeds 8" (R76) -/
  len_le : o.len.toNat ≤ 8
  /-- "Output payload bytes at indices `>= out.len` are also driven 0" (R12) -/
  tail_zero : ∀ a, o.len.toNat ≤ a → Memory.read o.p a = 0
  /-- the codes 6 and 7 are never produced (R66) -/
  err_produced : o.err.toNat ≤ 5
  /-- "The reserved bits 31:11 are always 0 in a word the unit produces" (R64) -/
  word_reserved : o.word.toNat < 2 ^ 11
  /-- a reported kind is a 5-bit kind or 254 (R67) -/
  kind_reported : o.kind.toNat < 2 ^ 5 ∨ o.kind = 254

/-- The invariant of the machine: the table is the hardwired one, the presented payload is in canonical form, and the
output ports are as a transaction leaves them. -/
structure State.Sound (s : State) : Prop where
  table : s.TableHardwired
  payload : Memory.wf s.inp.p = true
  outputs : OutputsSound s.out

/-- A safe step: the transaction completes (00_scope.md R13: "every defined operation completes"). -/
def Completes (r : Host.Outcome State Fault Refusal) : Prop := ∃ t, r = .next t

end Sys2Proof.Machine
end

