-- ==== Sys2Proof/Certificates/Slice0/Obligations.lean ====
section
/-! DEFINITION. The statements for the provers, from the numbered rules of spec/ (OBLIGATIONS.json says which).
Field values are written as plain arithmetic on the operands, not with the model's own packing functions. `s.drive o` is
the state `s` with its output ports `o` and everything else unchanged, so an equation with it states the whole frame. -/

open Sys2Proof Sys2Proof.Machine

/-! ## Operation select, decoding, one step -/

/-- R60: each `op` value selects its operation, 0x9 to 0xF are reserved. -/
def Obligations.OpSelectsOperation : Prop :=
  ∀ t : Inputs,
    (t.op = 0x0 → decode t = .ok (.encode t.f0 t.f1 t.f2)) ∧
    (t.op = 0x1 → decode t = .ok (.decode t.word)) ∧
    (t.op = 0x2 → decode t = .ok (.identify t.word)) ∧
    (t.op = 0x3 → decode t = .ok (.buildStatus t.f0 t.b0 t.f1 t.f2 t.f3)) ∧
    (t.op = 0x4 → decode t = .ok (.parseStatus t.p t.len)) ∧
    (t.op = 0x5 → decode t = .ok (.buildControl t.b0 t.b1)) ∧
    (t.op = 0x6 → decode t = .ok (.parseControl t.p t.len)) ∧
    (t.op = 0x7 → decode t = .ok (.buildDistance t.f0 t.f1 t.b0 t.b1)) ∧
    (t.op = 0x8 → decode t = .ok (.parseDistance t.p t.len)) ∧
    (9 ≤ t.op.toNat → decode t = .error (.reservedOp t.op))

/-- When the presented inputs decode to an instruction, a step is that instruction's meaning; step adds nothing around it. -/
def Obligations.StepRunsDecodedInstruction : Prop :=
  ∀ (s : State) (i : Instr), decode s.inp = .ok i → step s = exec i s

/-- "A model refuses a transaction with such an `op` and gives it no meaning" (the model's half of R61; log 6). -/
def Obligations.ReservedOpIsRefused : Prop :=
  ∀ s : State, 9 ≤ s.inp.op.toNat → step s = .refused (.reservedOp s.inp.op)

/-- A few table words written out from R60: op 0011 is BUILD_STATUS, and so on (the operands of 0: log 9). -/
def Obligations.WrittenWordsDecode : Prop :=
  decodeTableWord 8 0b0000 = some (.encode 0 0 0) ∧
  decodeTableWord 8 0b0010 = some (.identify 0) ∧
  decodeTableWord 8 0b0011 = some (.buildStatus 0 false 0 0 0) ∧
  decodeTableWord 8 0b0110 = some (.parseControl [] 0) ∧
  decodeTableWord 8 0b1000 = some (.parseDistance [] 0) ∧
  decodeTableWord 8 0b1001 = none

/-- Decode and encode agree: an encoded instruction decodes to itself and is a transaction a host may present; encoding a
decoded transaction gives back exactly the ports its line lists; and decoding reads no other port. -/
def Obligations.DecodeEncodeAgree : Prop :=
  (∀ i : Instr, i.wf = true → decode (encode i) = .ok i ∧ (encode i).wf = true) ∧
  (∀ (t : Inputs) (i : Instr), decode t = .ok i → encode i = listedInputs t) ∧
  (∀ t t' : Inputs, listedInputs t = listedInputs t' → decode t = decode t')

/-- A step completes exactly when `op` is not reserved; no step faults, and a refusal is the reserved `op`'s. -/
def Obligations.EveryDefinedOperationCompletes : Prop :=
  ∀ s : State,
    (Completes (step s) ↔ s.inp.op.toNat < 9) ∧
    (∀ f, step s ≠ .fault f) ∧
    (∀ r, step s = .refused r → r = .reservedOp s.inp.op)

/-! ## Addressing word -/

/-- R100. -/
def Obligations.EncodePacksHeader : Prop :=
  (∀ t : Inputs, t.op = 0x0 → decode t = .ok (.encode t.f0 t.f1 t.f2)) ∧
  (∀ (source destination kind : Word) (s : State),
    exec (.encode source destination kind) s = .next (s.drive { Outputs.zero with
      word := BitVec.ofNat 32 (source.toNat % 8 + destination.toNat % 8 * 8 + kind.toNat % 32 * 64)
      err := 0 }))

/-- R101. -/
def Obligations.DecodeUnpacksHeader : Prop :=
  (∀ t : Inputs, t.op = 0x1 → decode t = .ok (.decode t.word)) ∧
  (∀ (w : Word) (s : State),
    exec (.decode w) s = .next (s.drive { Outputs.zero with
      src := BitVec.ofNat 3 (w.toNat % 8)
      dst := BitVec.ofNat 3 (w.toNat / 8 % 8)
      kind := BitVec.ofNat 8 (w.toNat / 64 % 32)
      err := 0 }))

/-- R102, for every field value that fits. -/
def Obligations.EncodeThenDecode : Prop :=
  ∀ (source destination kind : Word) (s s' : State),
    source.toNat < 8 → destination.toNat < 8 → kind.toNat < 32 →
    ∃ t, exec (.encode source destination kind) s = .next t ∧
      exec (.decode t.out.word) s' = .next (s'.drive { Outputs.zero with
        src := BitVec.ofNat 3 source.toNat
        dst := BitVec.ofNat 3 destination.toNat
        kind := BitVec.ofNat 8 kind.toNat })

/-- R103. -/
def Obligations.DecodeThenEncode : Prop :=
  ∀ (w : Word) (s s' : State),
    ∃ t, exec (.decode w) s = .next t ∧
      exec (.encode (t.out.src.setWidth 32) (t.out.dst.setWidth 32) (t.out.kind.setWidth 32)) s' =
        .next (s'.drive { Outputs.zero with word := BitVec.ofNat 32 (w.toNat % 2 ^ 11) })

/-- R64: produced words have bits 31:11 clear, and DECODE and IDENTIFY do not read those bits. -/
def Obligations.HeaderReservedBits : Prop :=
  (∀ (i : Instr) (s t : State), exec i s = .next t → t.out.word.toNat < 2 ^ 11) ∧
  (∀ (w w' : Word) (s : State), w.toNat % 2 ^ 11 = w'.toNat % 2 ^ 11 →
    exec (.decode w) s = exec (.decode w') s ∧ exec (.identify w) s = exec (.identify w') s)

/-! ## IDENTIFY -/

/-- R120: the fields, the kind or 254, and the error of the last check that fires. -/
def Obligations.IdentifyReportsLastCheck : Prop :=
  (∀ t : Inputs, t.op = 0x2 → decode t = .ok (.identify t.word)) ∧
  (∀ (w : Word) (s : State), s.TableHardwired →
    exec (.identify w) s = .next (s.drive { Outputs.zero with
      src := BitVec.ofNat 3 (w.toNat % 8)
      dst := BitVec.ofNat 3 (w.toNat / 8 % 8)
      kind := if w.toNat / 64 % 32 ≤ 2 then BitVec.ofNat 8 (w.toNat / 64 % 32) else 254
      err :=
        if 2 < w.toNat / 64 % 32 then 1
        else if w.toNat % 8 = w.toNat / 8 % 8 then 3
        else if 1 < w.toNat / 8 % 8 then 2
        else if 1 < w.toNat % 8 then 3
        else 0 }))

/-- R121: the outcome table, row by row, and the row for kinds 3 to 31. -/
def Obligations.IdentifyOutcomeTable : Prop :=
  ∀ (w : Word) (s : State), s.TableHardwired →
    ∃ t, exec (.identify w) s = .next t ∧
      (w.toNat / 64 % 32 ≤ 2 →
        (w.toNat % 8 ≤ 1 → w.toNat / 8 % 8 ≤ 1 → w.toNat % 8 ≠ w.toNat / 8 % 8 → t.out.err = 0) ∧
        (w.toNat % 8 ≤ 1 → w.toNat / 8 % 8 ≤ 1 → w.toNat % 8 = w.toNat / 8 % 8 → t.out.err = 3) ∧
        (2 ≤ w.toNat % 8 → w.toNat / 8 % 8 ≤ 1 → t.out.err = 3) ∧
        (w.toNat % 8 ≤ 1 → 2 ≤ w.toNat / 8 % 8 → t.out.err = 2) ∧
        (2 ≤ w.toNat % 8 → 2 ≤ w.toNat / 8 % 8 → w.toNat % 8 ≠ w.toNat / 8 % 8 → t.out.err = 2) ∧
        (2 ≤ w.toNat % 8 → 2 ≤ w.toNat / 8 % 8 → w.toNat % 8 = w.toNat / 8 % 8 → t.out.err = 3)) ∧
      (3 ≤ w.toNat / 64 % 32 → t.out.err = 1 ∧ t.out.kind = 254)

/-- R122: exactly the valid words pass, six of them with the reserved bits 0. -/
def Obligations.IdentifyPassesExactlyValidWords : Prop :=
  ∀ (w : Word) (s : State), s.TableHardwired →
    ∃ t, exec (.identify w) s = .next t ∧
      (t.out.err = 0 ↔
        w.toNat / 64 % 32 ≤ 2 ∧ w.toNat % 8 ≤ 1 ∧ w.toNat / 8 % 8 ≤ 1 ∧ w.toNat % 8 ≠ w.toNat / 8 % 8) ∧
      (w.toNat < 2 ^ 11 → (t.out.err = 0 ↔ w ∈ [0x008, 0x001, 0x048, 0x041, 0x088, 0x081]))

/-- R124: no direction check, though the builder emits 0x088 only. -/
def Obligations.IdentifyChecksNoDirection : Prop :=
  (∀ (w : Word) (s : State), s.TableHardwired → w ∈ [0x081, 0x008, 0x048] →
    ∃ t, exec (.identify w) s = .next t ∧ t.out.err = 0) ∧
  (∀ (distance lux : Word) (overRange sensorOk : Bool) (s : State),
    ∃ t, exec (.buildDistance distance lux overRange sensorOk) s = .next t ∧ t.out.word = 0x088)

/-- The parser the host issues after IDENTIFY (the model's host function, log 13) is the one its kind names, and none unless
out.err is NoError. -/
def Obligations.DispatchFollowsReportedKind : Prop :=
  ∀ (w : Word) (s : State) (p : Memory) (len : BitVec 4), s.TableHardwired →
    ∃ t, exec (.identify w) s = .next t ∧
      (t.out.err ≠ 0 → dispatchParser t.out p len = none) ∧
      (t.out.err = 0 →
        (w.toNat / 64 % 32 = 0 → dispatchParser t.out p len = some (.parseStatus p len)) ∧
        (w.toNat / 64 % 32 = 1 → dispatchParser t.out p len = some (.parseControl p len)) ∧
        (w.toNat / 64 % 32 = 2 → dispatchParser t.out p len = some (.parseDistance p len)))

/-! ## Status -/

/-- R140: the whole frame and the advisory code. -/
def Obligations.BuildStatusFrame : Prop :=
  (∀ t : Inputs, t.op = 0x3 → decode t = .ok (.buildStatus t.f0 t.b0 t.f1 t.f2 t.f3)) ∧
  (∀ (uptime : Word) (loopback : Bool) (temperature voltage adc : Word) (s : State),
    exec (.buildStatus uptime loopback temperature voltage adc) s = .next (s.drive { Outputs.zero with
      word := 0x00000001
      p := payloadOfBytes [
        BitVec.ofNat 8 uptime.toNat, BitVec.ofNat 8 (uptime.toNat / 2 ^ 8), BitVec.ofNat 8 (uptime.toNat / 2 ^ 16),
        BitVec.ofNat 8 (loopback.toNat + temperature.toNat % 2 ^ 7 * 2),
        BitVec.ofNat 8 voltage.toNat, BitVec.ofNat 8 (voltage.toNat / 2 ^ 8),
        BitVec.ofNat 8 adc.toNat, BitVec.ofNat 8 (adc.toNat / 2 ^ 8)]
      len := 8
      err := if uptime.toNat ≤ 16777215 ∧ voltage.toNat ≤ 4000 ∧ adc.toNat ≤ 16000 then 0 else 4 }))

/-- R141: operands that agree after truncation give the same frame, whatever the checks say. -/
def Obligations.StatusFailOpen : Prop :=
  ∀ (u u' : Word) (lb : Bool) (c c' v v' a a' : Word) (s s' : State),
    u.toNat % 2 ^ 24 = u'.toNat % 2 ^ 24 → c.toNat % 2 ^ 7 = c'.toNat % 2 ^ 7 →
    v.toNat % 2 ^ 16 = v'.toNat % 2 ^ 16 → a.toNat % 2 ^ 16 = a'.toNat % 2 ^ 16 →
    ∃ t t', exec (.buildStatus u lb c v a) s = .next t ∧ exec (.buildStatus u' lb c' v' a') s' = .next t' ∧
      t.out.word = t'.out.word ∧ t.out.p = t'.out.p ∧ t.out.len = t'.out.len

/-- R144: seven bits, packed by truncation, unchecked, read back without sign extension; -1 packs as 127. -/
def Obligations.TemperatureIsSevenBitUnsigned : Prop :=
  (∀ (u : Word) (lb : Bool) (c v a : Word) (s : State),
    ∃ t, exec (.buildStatus u lb c v a) s = .next t ∧ (Memory.read t.out.p 3).toNat / 2 = c.toNat % 2 ^ 7) ∧
  (∀ (u : Word) (lb : Bool) (c c' v a : Word) (s : State), c.toNat % 2 ^ 7 = c'.toNat % 2 ^ 7 →
    exec (.buildStatus u lb c v a) s = exec (.buildStatus u lb c' v a) s) ∧
  (∀ (u : Word) (lb : Bool) (v a : Word) (s : State),
    exec (.buildStatus u lb 0xFFFFFFFF v a) s = exec (.buildStatus u lb 127 v a) s) ∧
  (∀ (p : Memory) (len : BitVec 4) (s : State),
    ∃ t, exec (.parseStatus p len) s = .next t ∧
      t.out.f1.toNat = (Memory.read p 3).toNat / 2 ∧ t.out.f1.toNat ≤ 127)

/-- R150. -/
def Obligations.ParseStatusFields : Prop :=
  (∀ t : Inputs, t.op = 0x4 → decode t = .ok (.parseStatus t.p t.len)) ∧
  (∀ (p : Memory) (len : BitVec 4) (s : State),
    exec (.parseStatus p len) s = .next (s.drive { Outputs.zero with
      f0 := BitVec.ofNat 32 ((Memory.read p 0).toNat + (Memory.read p 1).toNat * 2 ^ 8 + (Memory.read p 2).toNat * 2 ^ 16)
      b0 := (Memory.read p 3).getLsbD 0
      f1 := BitVec.ofNat 32 ((Memory.read p 3).toNat / 2)
      f2 := BitVec.ofNat 32 ((Memory.read p 4).toNat + (Memory.read p 5).toNat * 2 ^ 8)
      f3 := BitVec.ofNat 32 ((Memory.read p 6).toNat + (Memory.read p 7).toNat * 2 ^ 8)
      err := 0 }))

/-- R151: parsing a built payload gives the truncated operands, whatever code the builder gave. -/
def Obligations.StatusRoundTrip : Prop :=
  ∀ (uptime : Word) (loopback : Bool) (temperature voltage adc : Word) (len : BitVec 4) (s s' : State),
    ∃ t, exec (.buildStatus uptime loopback temperature voltage adc) s = .next t ∧
      exec (.parseStatus t.out.p len) s' = .next (s'.drive { Outputs.zero with
        f0 := BitVec.ofNat 32 (uptime.toNat % 2 ^ 24)
        b0 := loopback
        f1 := BitVec.ofNat 32 (temperature.toNat % 2 ^ 7)
        f2 := BitVec.ofNat 32 (voltage.toNat % 2 ^ 16)
        f3 := BitVec.ofNat 32 (adc.toNat % 2 ^ 16) })

/-! ## Control -/

/-- R160. -/
def Obligations.BuildControlFrame : Prop :=
  (∀ t : Inputs, t.op = 0x5 → decode t = .ok (.buildControl t.b0 t.b1)) ∧
  (∀ (reset canLoopback : Bool) (s : State),
    exec (.buildControl reset canLoopback) s = .next (s.drive { Outputs.zero with
      word := 0x00000041
      p := payloadOfBytes [BitVec.ofNat 8 (reset.toNat + canLoopback.toNat * 2)]
      len := 1
      err := 0 }))

/-- R170. -/
def Obligations.ParseControlFlags : Prop :=
  (∀ t : Inputs, t.op = 0x6 → decode t = .ok (.parseControl t.p t.len)) ∧
  (∀ (p : Memory) (len : BitVec 4) (s : State),
    exec (.parseControl p len) s = .next (s.drive { Outputs.zero with
      b0 := (Memory.read p 0).getLsbD 0
      b1 := (Memory.read p 0).getLsbD 1
      err := 0 }))

/-- R171. -/
def Obligations.ControlRoundTrip : Prop :=
  ∀ (reset canLoopback : Bool) (len : BitVec 4) (s s' : State),
    ∃ t, exec (.buildControl reset canLoopback) s = .next t ∧
      exec (.parseControl t.out.p len) s' = .next (s'.drive { Outputs.zero with b0 := reset, b1 := canLoopback })

/-! ## Distance -/

/-- R180: the whole frame for either DIST_WORD_OFFSET, and the advisory code. -/
def Obligations.BuildDistanceFrame : Prop :=
  (∀ t : Inputs, t.op = 0x7 → decode t = .ok (.buildDistance t.f0 t.f1 t.b0 t.b1)) ∧
  (∀ (distance lux : Word) (overRange sensorOk : Bool) (s : State),
    exec (.buildDistance distance lux overRange sensorOk) s = .next (s.drive { Outputs.zero with
      word := 0x00000088
      p := payloadOfBytes (
        [BitVec.ofNat 8 distance.toNat, BitVec.ofNat 8 (distance.toNat / 2 ^ 8)] ++
        (if s.cfg.distWordOffset = .four then [0, 0] else []) ++
        [BitVec.ofNat 8 lux.toNat, BitVec.ofNat 8 (lux.toNat / 2 ^ 8), BitVec.ofNat 8 (lux.toNat / 2 ^ 16),
         BitVec.ofNat 8 (lux.toNat / 2 ^ 24 % 2 ^ 6 + overRange.toNat * 2 ^ 6 + sensorOk.toNat * 2 ^ 7)])
      len := if s.cfg.distWordOffset = .four then 8 else 6
      err := if distance.toNat ≤ 300 ∧ lux.toNat ≤ 100000 then 0 else 5 }))

/-- R181: operands that agree after truncation give the same frame on units with the same offset. -/
def Obligations.DistanceFailOpen : Prop :=
  ∀ (d d' l l' : Word) (overRange sensorOk : Bool) (s s' : State), s.cfg = s'.cfg →
    d.toNat % 2 ^ 16 = d'.toNat % 2 ^ 16 → l.toNat % 2 ^ 30 = l'.toNat % 2 ^ 30 →
    ∃ t t', exec (.buildDistance d l overRange sensorOk) s = .next t ∧ exec (.buildDistance d' l' overRange sensorOk) s' = .next t' ∧
      t.out.word = t'.out.word ∧ t.out.p = t'.out.p ∧ t.out.len = t'.out.len

/-- R184: the distance bound is 300 mm. -/
def Obligations.DistanceBoundIs300 : Prop :=
  ∀ (d l : Word) (overRange sensorOk : Bool) (s : State), l.toNat ≤ 100000 →
    ∃ t, exec (.buildDistance d l overRange sensorOk) s = .next t ∧ (t.out.err = 0 ↔ d.toNat ≤ 300)

/-- R190: the fields, for either DIST_WORD_OFFSET. -/
def Obligations.ParseDistanceFields : Prop :=
  (∀ t : Inputs, t.op = 0x8 → decode t = .ok (.parseDistance t.p t.len)) ∧
  (∀ (p : Memory) (len : BitVec 4) (s : State) (o : Nat),
    o = (if s.cfg.distWordOffset = .four then 4 else 2) →
    exec (.parseDistance p len) s = .next (s.drive { Outputs.zero with
      f0 := BitVec.ofNat 32 ((Memory.read p 0).toNat + (Memory.read p 1).toNat * 2 ^ 8)
      f1 := BitVec.ofNat 32 ((Memory.read p o).toNat + (Memory.read p (o + 1)).toNat * 2 ^ 8 +
        (Memory.read p (o + 2)).toNat * 2 ^ 16 + (Memory.read p (o + 3)).toNat % 2 ^ 6 * 2 ^ 24)
      b0 := (Memory.read p (o + 3)).getLsbD 6
      b1 := (Memory.read p (o + 3)).getLsbD 7
      err := 0 }))

/-- R191: parsing a built payload gives the truncated operands, for either offset and whatever code the builder gave. -/
def Obligations.DistanceRoundTrip : Prop :=
  ∀ (distance lux : Word) (overRange sensorOk : Bool) (len : BitVec 4) (s s' : State), s.cfg = s'.cfg →
    ∃ t, exec (.buildDistance distance lux overRange sensorOk) s = .next t ∧
      exec (.parseDistance t.out.p len) s' = .next (s'.drive { Outputs.zero with
        f0 := BitVec.ofNat 32 (distance.toNat % 2 ^ 16)
        f1 := BitVec.ofNat 32 (lux.toNat % 2 ^ 30)
        b0 := overRange
        b1 := sensorOk })

/-! ## Rules over several operations -/

/-- R68 and R142: each builder's header word is a constant, and DECODE of it gives the table's ids and kind. -/
def Obligations.BuilderHeaderWords : Prop :=
  (∀ (u : Word) (lb : Bool) (c v a : Word) (s s' : State),
    ∃ t, exec (.buildStatus u lb c v a) s = .next t ∧ t.out.word = 0x00000001 ∧
      exec (.decode t.out.word) s' = .next (s'.drive { Outputs.zero with src := 1, dst := 0, kind := 0 })) ∧
  (∀ (r lb : Bool) (s s' : State),
    ∃ t, exec (.buildControl r lb) s = .next t ∧ t.out.word = 0x00000041 ∧
      exec (.decode t.out.word) s' = .next (s'.drive { Outputs.zero with src := 1, dst := 0, kind := 1 })) ∧
  (∀ (d l : Word) (overRange sensorOk : Bool) (s s' : State),
    ∃ t, exec (.buildDistance d l overRange sensorOk) s = .next t ∧ t.out.word = 0x00000088 ∧
      exec (.decode t.out.word) s' = .next (s'.drive { Outputs.zero with src := 0, dst := 1, kind := 2 }))

/-- R76: the declared lengths. -/
def Obligations.DeclaredLengths : Prop :=
  ∀ (i : Instr) (s : State), ∃ t, exec i s = .next t ∧ t.out.len.toNat ≤ 8 ∧
    t.out.len = match i with
      | .buildStatus _ _ _ _ _ => 8
      | .buildControl _ _ => 1
      | .buildDistance _ _ _ _ => if s.cfg.distWordOffset = .four then 8 else 6
      | .encode _ _ _ => 0
      | .decode _ => 0
      | .identify _ => 0
      | .parseStatus _ _ => 0
      | .parseControl _ _ => 0
      | .parseDistance _ _ => 0

/-- R12: every output an operation does not name is 0, and so is every payload byte at or above out.len. -/
def Obligations.UnnamedOutputsAreZero : Prop :=
  ∀ (i : Instr) (s : State), ∃ t, exec i s = .next t ∧
    (∀ a, t.out.len.toNat ≤ a → Memory.read t.out.p a = 0) ∧
    t.out = match i with
      | .encode _ _ _ => { Outputs.zero with word := t.out.word, err := t.out.err }
      | .decode _ | .identify _ =>
        { Outputs.zero with src := t.out.src, dst := t.out.dst, kind := t.out.kind, err := t.out.err }
      | .buildStatus _ _ _ _ _ | .buildControl _ _ | .buildDistance _ _ _ _ =>
        { Outputs.zero with word := t.out.word, p := t.out.p, len := t.out.len, err := t.out.err }
      | .parseStatus _ _ =>
        { Outputs.zero with f0 := t.out.f0, f1 := t.out.f1, f2 := t.out.f2, f3 := t.out.f3, b0 := t.out.b0, err := t.out.err }
      | .parseControl _ _ => { Outputs.zero with b0 := t.out.b0, b1 := t.out.b1, err := t.out.err }
      | .parseDistance _ _ =>
        { Outputs.zero with f0 := t.out.f0, f1 := t.out.f1, b0 := t.out.b0, b1 := t.out.b1, err := t.out.err }

/-- R66: which operation produces which error code, and on what; 6 and 7 never. -/
def Obligations.ErrorCodeCauses : Prop :=
  ∀ (i : Instr) (s : State), s.TableHardwired → ∃ t, exec i s = .next t ∧
    (t.out.err = 1 ↔ ∃ w, i = .identify w ∧ 3 ≤ w.toNat / 64 % 32) ∧
    (t.out.err = 2 ↔ ∃ w, i = .identify w ∧ w.toNat / 64 % 32 ≤ 2 ∧
      1 < w.toNat / 8 % 8 ∧ w.toNat % 8 ≠ w.toNat / 8 % 8) ∧
    (t.out.err = 3 ↔ ∃ w, i = .identify w ∧ w.toNat / 64 % 32 ≤ 2 ∧
      ((1 < w.toNat % 8 ∧ w.toNat / 8 % 8 ≤ 1) ∨ w.toNat % 8 = w.toNat / 8 % 8)) ∧
    (t.out.err = 4 ↔ ∃ u lb c v a, i = .buildStatus u lb c v a ∧
      (16777215 < u.toNat ∨ 4000 < v.toNat ∨ 16000 < a.toNat)) ∧
    (t.out.err = 5 ↔ ∃ d l overRange sensorOk, i = .buildDistance d l overRange sensorOk ∧ (300 < d.toNat ∨ 100000 < l.toNat)) ∧
    t.out.err ≠ 6 ∧ t.out.err ≠ 7

/-- R204 and R172: the parsers always report NoError, whatever the payload and in.len are, and BUILD_CONTROL does too. -/
def Obligations.ParsersAndControlNeverFail : Prop :=
  (∀ (p : Memory) (len : BitVec 4) (s : State),
    (∃ t, exec (.parseStatus p len) s = .next t ∧ t.out.err = 0) ∧
    (∃ t, exec (.parseControl p len) s = .next t ∧ t.out.err = 0) ∧
    (∃ t, exec (.parseDistance p len) s = .next t ∧ t.out.err = 0)) ∧
  (∀ (r lb : Bool) (s : State), ∃ t, exec (.buildControl r lb) s = .next t ∧ t.out.err = 0)

/-- R27: in.len is never read and InvalidBuffer is never produced. -/
def Obligations.InLenNeverRead : Prop :=
  ∀ (s : State) (l : BitVec 4),
    outputsOf (step (s.present { s.inp with len := l })) = outputsOf (step s) ∧
    (∀ t, step s = .next t → t.out.err ≠ 7)

/-- R28: on one unit, equal inputs give equal outputs, whatever ran before. -/
def Obligations.OutputsDependOnlyOnInputs : Prop :=
  ∀ s s' : State, s.validKinds = s'.validKinds → s.cfg = s'.cfg → s.inp = s'.inp →
    outputsOf (step s) = outputsOf (step s')

/-- R29: the builders read no in.p byte, the parsers drive every out.p byte to 0; ENCODE, DECODE and IDENTIFY do neither. -/
def Obligations.PayloadPortsAreSeparate : Prop :=
  ∀ s : State,
    (∀ q : Memory, s.inp.op ∈ [0x0, 0x1, 0x2, 0x3, 0x5, 0x7] →
      outputsOf (step (s.present { s.inp with p := q })) = outputsOf (step s)) ∧
    (s.inp.op ∈ [0x0, 0x1, 0x2, 0x4, 0x6, 0x8] → ∃ t, step s = .next t ∧ ∀ a, Memory.read t.out.p a = 0)

/-- A parser ignores every in.p byte outside the ones it is listed to read (the reads column of R45). -/
def Obligations.ParsersReadOnlyListedBytes : Prop :=
  ∀ (p q : Memory) (len : BitVec 4) (s : State) (o : Nat),
    o = (if s.cfg.distWordOffset = .four then 4 else 2) →
    ((∀ a, a < 8 → Memory.read p a = Memory.read q a) → exec (.parseStatus p len) s = exec (.parseStatus q len) s) ∧
    (Memory.read p 0 = Memory.read q 0 → exec (.parseControl p len) s = exec (.parseControl q len) s) ∧
    ((∀ a, a < 2 ∨ (o ≤ a ∧ a < o + 4) → Memory.read p a = Memory.read q a) →
      exec (.parseDistance p len) s = exec (.parseDistance q len) s)

/-- R41: MemRead and MemWrite are little-endian, byte by byte, and a write leaves every other byte. -/
def Obligations.PayloadAccessIsLittleEndian : Prop :=
  (∀ (m : Memory) (i n : Nat), i + n ≤ 8 →
    ∃ v, memRead m i n = .ok v ∧
      v.toNat = ((List.range n).map fun j => (Memory.read m (i + j)).toNat <<< (8 * j)).sum) ∧
  (∀ (m : Memory) (i n : Nat) (v : Wide), Memory.wf m = true → i + n ≤ 8 →
    ∃ m', memWrite m i n v = .ok m' ∧ Memory.wf m' = true ∧
      (∀ j, j < n → (Memory.read m' (i + j)).toNat = v.toNat / 2 ^ (8 * j) % 2 ^ 8) ∧
      (∀ a, a < i ∨ i + n ≤ a → Memory.read m' a = Memory.read m a))

/-- R23: the table holds {0, 1, 2} from power-up, no step writes it, and only IDENTIFY reads it. -/
def Obligations.ConstantTableIsReadOnly : Prop :=
  State.reset.validKinds = [0, 1, 2] ∧
  (∀ s t : State, step s = .next t → t.validKinds = s.validKinds) ∧
  (∀ (s : State) (kinds : List (BitVec 5)), s.inp.op ≠ 0x2 →
    outputsOf (step { s with validKinds := kinds }) = outputsOf (step s))

/-- R230: from power-up the table is there, and the first transaction gives what it gives at any later time. -/
def Obligations.FirstTransactionIsLikeAnyOther : Prop :=
  State.reset.validKinds = [0, 1, 2] ∧
  (∀ (s : State) (t : Inputs), s.TableHardwired → s.cfg = Config.default →
    outputsOf (transact State.reset t) = outputsOf (transact s t))

/-- A step changes the output ports and nothing else: neither the table, the parameter nor the presented inputs (that the
inputs stay presented is the model's reading, log 2). -/
def Obligations.StepChangesOnlyOutputs : Prop :=
  ∀ s t : State, step s = .next t → t.validKinds = s.validKinds ∧ t.cfg = s.cfg ∧ t.inp = s.inp

/-- Repeating a transaction with the same inputs gives the same outputs (the idempotence clause of R46). -/
def Obligations.TransactionIsIdempotent : Prop :=
  ∀ s t : State, step s = .next t → step t = .next t

/-! ## Whole-machine results -/

/-- Every step from a sound state gives a sound state. -/
def Obligations.StepKeepsSound : Prop := ∀ s t : State, s.Sound → step s = .next t → t.Sound

/-- The state after reset is sound; its port values are the model's choice (log 3). -/
def Obligations.ResetIsSound : Prop := State.reset.Sound

/-- A sequence of transactions completes, leaves the table and the parameter, and each one's outputs are those it gives
alone: no transaction depends on an earlier one (10_state.md R28, 70_reset_and_hazards.md R239). That the host presents
the transactions one by one between steps, as runTransactions does, is the model's choice (log 2). -/
def Obligations.SequenceIsHistoryFree : Prop :=
  ∀ (ts : List Inputs) (s : State), (∀ t ∈ ts, t.op.toNat < 9) →
    ∃ s' os, runTransactions s ts = .next (s', os) ∧
      s'.validKinds = s.validKinds ∧ s'.cfg = s.cfg ∧
      os.map some = ts.map fun t => outputsOf (transact s t)

/-- A frame any builder made, transmitted whole and received by a unit with the same parameter, passes IDENTIFY, is
dispatched to its own parser, and gives the sender's operands truncated to their fields (the host's part by the functions
of log 13). -/
def Obligations.BuiltFramesAreReceived : Prop :=
  ∀ s r : State, r.TableHardwired → r.cfg = s.cfg →
    (∀ (u : Word) (lb : Bool) (c v a : Word),
      ∃ t r' o, exec (.buildStatus u lb c v a) s = .next t ∧ receiveFrame r (frameOf t.out) = .next (r', [o, r'.out]) ∧
        o.err = 0 ∧ r'.out = { Outputs.zero with
          f0 := BitVec.ofNat 32 (u.toNat % 2 ^ 24), b0 := lb, f1 := BitVec.ofNat 32 (c.toNat % 2 ^ 7),
          f2 := BitVec.ofNat 32 (v.toNat % 2 ^ 16), f3 := BitVec.ofNat 32 (a.toNat % 2 ^ 16) }) ∧
    (∀ reset lb : Bool,
      ∃ t r' o, exec (.buildControl reset lb) s = .next t ∧ receiveFrame r (frameOf t.out) = .next (r', [o, r'.out]) ∧
        o.err = 0 ∧ r'.out = { Outputs.zero with b0 := reset, b1 := lb }) ∧
    (∀ (d l : Word) (overRange sensorOk : Bool),
      ∃ t r' o, exec (.buildDistance d l overRange sensorOk) s = .next t ∧
        receiveFrame r (frameOf t.out) = .next (r', [o, r'.out]) ∧
        o.err = 0 ∧ r'.out = { Outputs.zero with
          f0 := BitVec.ofNat 32 (d.toNat % 2 ^ 16), f1 := BitVec.ofNat 32 (l.toNat % 2 ^ 30), b0 := overRange, b1 := sensorOk })

/-- What a host transmits after any instruction is the declared number of bytes, at most 8, each as out.p has it; a strict
host transmits nothing on an error (the model's host functions, log 13). -/
def Obligations.TransmittedFrameMatchesLength : Prop :=
  ∀ (i : Instr) (s : State), ∃ t, exec i s = .next t ∧
    (frameOf t.out).word = t.out.word ∧ (frameOf t.out).len = t.out.len.toNat ∧
    (frameOf t.out).payload.length = t.out.len.toNat ∧ t.out.len.toNat ≤ 8 ∧
    (∀ a, a < t.out.len.toNat → (frameOf t.out).payload[a]? = some (Memory.read t.out.p a)) ∧
    (strictFrame t.out = none ↔ t.out.err ≠ 0)

/-- One unit's transaction changes that unit as it would alone and no other unit (units as a list: log 12). -/
def Obligations.UnitsShareNothing : Prop :=
  ∀ (before after : List State) (s : State) (t : Inputs), t.op.toNat < 9 →
    ∃ s', transact s t = .next s' ∧
      transactAt (before ++ s :: after) before.length t = .next (before ++ s' :: after)
end

