-- ==== Sys2Proof/Laws/Memory.lean ====
section
/-! SUPPORT. The payload arrays: reading after writing, the canonical form, and the multi-byte accesses. -/

namespace Sys2Proof

@[simp] theorem unlistedByte_eq : unlistedByte = 0 := rfl

@[simp] theorem Memory.read_nil (i : Nat) : Memory.read [] i = 0 := rfl

theorem Memory.read_cons (a : Nat) (b : Byte) (m : Memory) (i : Nat) :
    Memory.read ((a, b) :: m) i = if i = a then b else Memory.read m i := rfl

theorem Memory.wfFrom_cons (lo a : Nat) (b : Byte) (m : Memory) :
    Memory.wfFrom lo ((a, b) :: m) = true ↔ lo ≤ a ∧ a < 8 ∧ b ≠ 0 ∧ Memory.wfFrom (a + 1) m = true := by
  rw [show Memory.wfFrom lo ((a, b) :: m) =
    (decide (lo ≤ a) && decide (a < 8) && decide (b ≠ 0) && Memory.wfFrom (a + 1) m) from rfl]
  simp [and_assoc]

theorem Memory.write_nil (i : Nat) (v : Byte) : Memory.write [] i v = if v = 0 then [] else [(i, v)] := rfl

theorem Memory.write_cons (a : Nat) (b : Byte) (m : Memory) (i : Nat) (v : Byte) :
    Memory.write ((a, b) :: m) i v =
      if i < a then (if v = 0 then (a, b) :: m else (i, v) :: (a, b) :: m)
      else if i = a then (if v = 0 then m else (i, v) :: m) else (a, b) :: Memory.write m i v := rfl

@[simp] theorem Memory.wf_nil : Memory.wf [] = true := rfl

theorem Memory.wfFrom_mono {lo lo' : Nat} {m : Memory} (h : Memory.wfFrom lo m = true) (hl : lo' ≤ lo) :
    Memory.wfFrom lo' m = true := by
  match m with
  | [] => rfl
  | (a, b) :: m =>
    rw [Memory.wfFrom_cons] at h ⊢
    exact ⟨Nat.le_trans hl h.1, h.2⟩

theorem Memory.read_below {lo i : Nat} {m : Memory} (h : Memory.wfFrom lo m = true) (hi : i < lo) :
    Memory.read m i = 0 := by
  induction m generalizing lo with
  | nil => rfl
  | cons c m ih =>
    obtain ⟨a, b⟩ := c
    rw [Memory.wfFrom_cons] at h
    rw [Memory.read_cons, if_neg (by omega)]
    exact ih h.2.2.2 (by omega)

/-- An index outside 0..7 reads 0 in canonical form. -/
theorem Memory.read_above {i : Nat} {m : Memory} (h : Memory.wf m = true) (hi : 8 ≤ i) : Memory.read m i = 0 := by
  have key : ∀ (lo : Nat) (m : Memory), Memory.wfFrom lo m = true → Memory.read m i = 0 := by
    intro lo m
    induction m generalizing lo with
    | nil => intro _; rfl
    | cons c m ih =>
      obtain ⟨a, b⟩ := c
      intro h
      rw [Memory.wfFrom_cons] at h
      rw [Memory.read_cons, if_neg (by omega)]
      exact ih _ h.2.2.2
  exact key 0 m h

theorem Memory.wfFrom_write {lo i : Nat} {v : Byte} {m : Memory} (h : Memory.wfFrom lo m = true)
    (hlo : lo ≤ i) (hi : i < 8) : Memory.wfFrom lo (Memory.write m i v) = true := by
  induction m generalizing lo with
  | nil =>
    rw [Memory.write_nil]
    split
    · rfl
    · rw [Memory.wfFrom_cons]; exact ⟨hlo, hi, ‹_›, rfl⟩
  | cons c m ih =>
    obtain ⟨a, b⟩ := c
    have h' := h
    rw [Memory.wfFrom_cons] at h
    rw [Memory.write_cons]
    split
    · split
      · exact h'
      · rw [Memory.wfFrom_cons, Memory.wfFrom_cons]
        exact ⟨hlo, hi, ‹_›, by omega, h.2.1, h.2.2.1, h.2.2.2⟩
    · split
      · subst i
        split
        · exact Memory.wfFrom_mono h.2.2.2 (by omega)
        · rw [Memory.wfFrom_cons]; exact ⟨hlo, hi, ‹_›, h.2.2.2⟩
      · rw [Memory.wfFrom_cons]
        exact ⟨h.1, h.2.1, h.2.2.1, ih h.2.2.2 (by omega)⟩

/-- A write keeps the canonical form. -/
theorem Memory.wf_write {i : Nat} {v : Byte} {m : Memory} (h : Memory.wf m = true) (hi : i < 8) :
    Memory.wf (Memory.write m i v) = true :=
  Memory.wfFrom_write h (Nat.zero_le i) hi

/-- Read after write. -/
theorem Memory.read_write {m : Memory} (h : Memory.wf m = true) (i j : Nat) (v : Byte) :
    Memory.read (Memory.write m i v) j = if j = i then v else Memory.read m j := by
  have key : ∀ (lo : Nat) (m : Memory), Memory.wfFrom lo m = true →
      Memory.read (Memory.write m i v) j = if j = i then v else Memory.read m j := by
    intro lo m
    induction m generalizing lo with
    | nil =>
      intro _
      rw [Memory.write_nil]
      split
      · subst v; simp
      · rw [Memory.read_cons]
    | cons c m ih =>
      obtain ⟨a, b⟩ := c
      intro h
      have h' := h
      rw [Memory.wfFrom_cons] at h
      rw [Memory.write_cons]
      split
      · split
        · by_cases hj : j = i
          · subst v
            rw [if_pos hj, Memory.read_below (lo := a) (Memory.wfFrom_cons .. |>.2 ⟨Nat.le_refl a, h.2⟩) (by omega)]
          · rw [if_neg hj]
        · rw [Memory.read_cons]
      · split
        · subst i
          split
          · subst v
            by_cases hj : j = a
            · rw [if_pos hj, Memory.read_below h.2.2.2 (by omega)]
            · rw [if_neg hj, Memory.read_cons, if_neg hj]
          · by_cases hj : j = a <;> simp [Memory.read_cons, hj]
        · rw [Memory.read_cons, Memory.read_cons, ih _ h.2.2.2]
          by_cases hj : j = i
          · subst hj; simp [*]
          · simp [hj]
  exact key 0 m h

/-- Two arrays in canonical form that read alike are the same data. -/
theorem Memory.wf_ext {m m' : Memory} (h : Memory.wf m = true) (h' : Memory.wf m' = true)
    (hr : ∀ i, Memory.read m i = Memory.read m' i) : m = m' := by
  have key : ∀ (m m' : Memory) (lo lo' : Nat), Memory.wfFrom lo m = true → Memory.wfFrom lo' m' = true →
      (∀ i, Memory.read m i = Memory.read m' i) → m = m' := by
    intro m
    induction m with
    | nil =>
      intro m' lo lo' _ h' hr
      match m' with
      | [] => rfl
      | (a, b) :: m' =>
        rw [Memory.wfFrom_cons] at h'
        have := hr a
        simp [Memory.read_cons] at this
        exact absurd this.symm h'.2.2.1
    | cons c m ih =>
      obtain ⟨a, b⟩ := c
      intro m' lo lo' h h' hr
      match m' with
      | [] =>
        rw [Memory.wfFrom_cons] at h
        have := hr a
        simp [Memory.read_cons] at this
        exact absurd this h.2.2.1
      | (a', b') :: m' =>
        rw [Memory.wfFrom_cons] at h h'
        have ha := hr a
        have ha' := hr a'
        rw [Memory.read_cons, Memory.read_cons, if_pos rfl] at ha
        rw [Memory.read_cons, Memory.read_cons, if_pos rfl] at ha'
        have haa : a = a' := by
          rcases Nat.lt_trichotomy a a' with hlt | heq | hgt
          · rw [if_neg (by omega), Memory.read_below h'.2.2.2 (by omega)] at ha
            exact absurd ha h.2.2.1
          · exact heq
          · rw [if_neg (by omega), Memory.read_below h.2.2.2 (by omega)] at ha'
            exact absurd ha'.symm h'.2.2.1
        subst haa
        rw [if_pos rfl] at ha
        subst ha
        congr 1
        refine ih m' _ _ h.2.2.2 h'.2.2.2 fun i => ?_
        by_cases hi : i = a
        · subst hi; rw [Memory.read_below h.2.2.2 (by omega), Memory.read_below h'.2.2.2 (by omega)]
        · have := hr i
          rwa [Memory.read_cons, Memory.read_cons, if_neg hi, if_neg hi] at this
  exact key m m' 0 0 h h' hr

/-- A multi-byte write keeps the canonical form. -/
theorem Memory.wf_writeLE {n : Nat} {m : Memory} {i : Nat} {v : Wide} (h : Memory.wf m = true) (hn : i + n ≤ 8) :
    Memory.wf (Memory.writeLE m i n v) = true := by
  induction n generalizing m i v with
  | zero => exact h
  | succ n ih => exact ih (Memory.wf_write h (by omega)) (by omega)

/-- MemWrite's bytes: byte `i+j` is bits 8j+7..8j of the value, every other byte is as before (R41). -/
theorem Memory.read_writeLE {n : Nat} {m : Memory} {i : Nat} {v : Wide} (h : Memory.wf m = true) (hn : i + n ≤ 8)
    (a : Nat) : Memory.read (Memory.writeLE m i n v) a =
      if i ≤ a ∧ a < i + n then v.extractLsb' (8 * (a - i)) 8 else Memory.read m a := by
  induction n generalizing m i v with
  | zero => rw [if_neg (by omega)]; rfl
  | succ n ih =>
    rw [Memory.writeLE, ih (Memory.wf_write h (by omega)) (by omega), Memory.read_write h]
    by_cases ha : a = i
    · subst ha
      rw [if_neg (by omega), if_pos rfl, if_pos (by omega)]
      apply BitVec.eq_of_getLsbD_eq
      intro k hk
      simp [hk]
    · by_cases hlt : i + 1 ≤ a ∧ a < i + 1 + n
      · rw [if_pos hlt, if_pos (by omega)]
        apply BitVec.eq_of_getLsbD_eq
        intro k hk
        have : 8 + (8 * (a - (i + 1)) + k) = 8 * (a - i) + k := by omega
        simp [BitVec.getLsbD_ushiftRight, hk, this]
      · rw [if_neg hlt, if_neg ha, if_neg (by omega)]

/-- MemRead's bits: bit 8j+r is bit r of byte `i+j` (R41). -/
theorem Memory.getLsbD_readLE (m : Memory) (n : Nat) (i k : Nat) (hn : n ≤ 8) :
    (Memory.readLE m i n).getLsbD k = (decide (k < 8 * n) && (Memory.read m (i + k / 8)).getLsbD (k % 8)) := by
  induction n generalizing i k with
  | zero => simp [Memory.readLE]
  | succ n ih =>
    simp only [Memory.readLE, BitVec.getLsbD_or, BitVec.getLsbD_setWidth, BitVec.getLsbD_shiftLeft]
    by_cases hk : k < 8
    · have h1 : k / 8 = 0 := by omega
      have h2 : k % 8 = k := by omega
      have h3 : k < 8 * (n + 1) := by omega
      have h4 : k < 64 := by omega
      simp [hk, h1, h2, h3, h4]
    · rw [ih (i + 1) (k - 8) (by omega)]
      have h1 : i + 1 + (k - 8) / 8 = i + k / 8 := by omega
      have h2 : (k - 8) % 8 = k % 8 := by omega
      have h3 : (k - 8 < 8 * n) ↔ (k < 8 * (n + 1)) := by omega
      have h5 : (Memory.read m i).getLsbD k = false := BitVec.getLsbD_of_ge _ _ (by omega)
      rw [h1, h2, h5]
      by_cases h4 : k < 8 * (n + 1)
      · have h6 : k < 64 := by omega
        simp [h3, h4, h6, hk]
      · simp [h3, h4]

/-- Reading back a multi-byte write gives the value's low n bytes. -/
theorem Memory.readLE_writeLE {n : Nat} {m : Memory} {i : Nat} {v : Wide} (h : Memory.wf m = true) (hn : i + n ≤ 8) :
    Memory.readLE (Memory.writeLE m i n v) i n = (v.setWidth (8 * n)).setWidth 64 := by
  apply BitVec.eq_of_getLsbD_eq
  intro k hk
  rw [Memory.getLsbD_readLE _ _ _ _ (by omega), Memory.read_writeLE h hn]
  by_cases hkn : k < 8 * n
  · rw [if_pos (by omega)]
    have : 8 * (i + k / 8 - i) + k % 8 = k := by omega
    rw [BitVec.getLsbD_extractLsb', this]
    simp only [BitVec.getLsbD_setWidth, hkn, hk, Nat.mod_lt, decide_true, Bool.true_and, Nat.zero_lt_succ]
  · simp [BitVec.getLsbD_setWidth, hkn]

/-- A multi-byte read sees only the bytes it covers. -/
theorem Memory.readLE_congr {n : Nat} {m m' : Memory} {i : Nat}
    (h : ∀ a, i ≤ a → a < i + n → Memory.read m a = Memory.read m' a) :
    Memory.readLE m i n = Memory.readLE m' i n := by
  induction n generalizing i with
  | zero => rfl
  | succ n ih =>
    rw [Memory.readLE, Memory.readLE, h i (by omega) (by omega), ih fun a h1 h2 => h a (by omega) (by omega)]

/-- A payload made of bytes is in canonical form. -/
theorem Memory.wfFrom_ofBytesFrom (bs : List Byte) (i : Nat) :
    Memory.wfFrom i (Memory.ofBytesFrom i bs) = true := by
  induction bs generalizing i with
  | nil => rfl
  | cons b bs ih =>
    simp only [Memory.ofBytesFrom]
    split
    · exact Memory.wfFrom_write (Memory.wfFrom_mono (ih (i + 1)) (by omega)) (Nat.le_refl i) ‹_›
    · rfl

theorem wf_payloadOfBytes (bs : List Byte) : Memory.wf (payloadOfBytes bs) = true :=
  Memory.wfFrom_ofBytesFrom bs 0

/-- A payload reads as the bytes it is made of, and 0 past them and past its capacity (R78, R236). -/
theorem read_payloadOfBytes (bs : List Byte) (i : Nat) :
    Memory.read (payloadOfBytes bs) i = if i < 8 then bs.getD i 0 else 0 := by
  have key : ∀ (bs : List Byte) (lo i : Nat), Memory.read (Memory.ofBytesFrom lo bs) i =
      if lo ≤ i ∧ i < 8 then bs.getD (i - lo) 0 else 0 := by
    intro bs
    induction bs with
    | nil => intro lo i; simp [Memory.ofBytesFrom]
    | cons b bs ih =>
      intro lo i
      simp only [Memory.ofBytesFrom]
      by_cases hlo : lo < 8
      · have hw : Memory.wf (Memory.ofBytesFrom (lo + 1) bs) = true :=
          Memory.wfFrom_mono (Memory.wfFrom_ofBytesFrom bs (lo + 1)) (by omega)
        rw [if_pos (show lo < payloadBytes from hlo), Memory.read_write hw, ih]
        by_cases hi : i = lo
        · subst hi; simp [hlo]
        · rw [if_neg hi]
          by_cases hge : lo + 1 ≤ i ∧ i < 8
          · have : i - lo = i - (lo + 1) + 1 := by omega
            rw [if_pos hge, if_pos (by omega), this, List.getD_cons_succ]
          · rw [if_neg hge, if_neg (by omega)]
      · rw [if_neg (show ¬lo < payloadBytes from hlo), if_neg (by omega)]; rfl
  have := key bs 0 i
  rw [Nat.sub_zero] at this
  rw [payloadOfBytes, this]
  simp only [Nat.zero_le, true_and]

end Sys2Proof
end

