-- ==== Sys2Proof/Laws/State.lean ====
section
/-! SUPPORT. One lemma per field per update of State, so that no proof unfolds a record update. -/

namespace Sys2Proof.Machine

@[simp] theorem State.drive_validKinds (s : State) (o : Outputs) : (s.drive o).validKinds = s.validKinds := rfl
@[simp] theorem State.drive_cfg (s : State) (o : Outputs) : (s.drive o).cfg = s.cfg := rfl
@[simp] theorem State.drive_inp (s : State) (o : Outputs) : (s.drive o).inp = s.inp := rfl
@[simp] theorem State.drive_out (s : State) (o : Outputs) : (s.drive o).out = o := rfl

@[simp] theorem State.present_validKinds (s : State) (t : Inputs) : (s.present t).validKinds = s.validKinds := rfl
@[simp] theorem State.present_cfg (s : State) (t : Inputs) : (s.present t).cfg = s.cfg := rfl
@[simp] theorem State.present_inp (s : State) (t : Inputs) : (s.present t).inp = t := rfl
@[simp] theorem State.present_out (s : State) (t : Inputs) : (s.present t).out = s.out := rfl

@[simp] theorem State.drive_drive (s : State) (o o' : Outputs) : (s.drive o).drive o' = s.drive o' := rfl
@[simp] theorem State.present_drive (s : State) (o : Outputs) (t : Inputs) :
    (s.drive o).present t = (s.present t).drive o := rfl
@[simp] theorem State.present_present (s : State) (t t' : Inputs) : (s.present t).present t' = s.present t' := rfl

@[simp] theorem State.withFetchWord_eq (s : State) (nbits w : Nat) :
    s.withFetchWord nbits w = s.present (inputsOfTableWord nbits w) := rfl

@[simp] theorem State.reset_validKinds : State.reset.validKinds = Config.validKinds := rfl
@[simp] theorem State.reset_cfg : State.reset.cfg = Config.default := rfl
@[simp] theorem State.reset_inp : State.reset.inp = Inputs.zero := rfl
@[simp] theorem State.reset_out : State.reset.out = Outputs.zero := rfl

end Sys2Proof.Machine
end

