-- ==== Sys2Proof/Laws/Ops.lean ====
section
/-! SUPPORT. What each shared operation can do, said once: the payload accesses, completing a transaction, decoding, and
one step. -/

namespace Sys2Proof

/-- Every `op` below 9 decodes to an instruction with that `op`, and only those do (R60, R61). -/
theorem decode_ok_iff (t : Inputs) : (∃ i, decode t = .ok i) ↔ t.op.toNat < 9 := by
  unfold decode
  split <;> simp_all
  omega

theorem decode_reserved {t : Inputs} (h : 9 ≤ t.op.toNat) : decode t = .error (.reservedOp t.op) := by
  unfold decode
  split <;> first | omega | rfl

theorem opOf_of_decode {t : Inputs} {i : Instr} (h : decode t = .ok i) : opOf i = t.op := by
  unfold decode at h
  split at h <;> cases h <;> exact BitVec.eq_of_toNat_eq (by simp [opOf, *])

end Sys2Proof

namespace Sys2Proof.Machine

theorem memRead_eq {i n : Nat} (m : Memory) (h : i + n ≤ 8) : memRead m i n = .ok (Memory.readLE m i n) := if_pos h

theorem memWrite_eq {i n : Nat} (m : Memory) (v : Wide) (h : i + n ≤ 8) :
    memWrite m i n v = .ok (Memory.writeLE m i n v) := if_pos h

/-- All a payload write can do: it answers the array with those bytes written, in canonical form, or the index fault. -/
theorem memWrite_ok {m m' : Memory} {i n : Nat} {v : Wide} (h : memWrite m i n v = .ok m') :
    i + n ≤ 8 ∧ m' = Memory.writeLE m i n v := by
  unfold memWrite at h
  split at h
  · cases h; exact ⟨‹_›, rfl⟩
  · cases h

/-- MemWrite keeps the canonical form. -/
theorem memWrite_wf {m m' : Memory} {i n : Nat} {v : Wide} (hm : Memory.wf m = true) (h : memWrite m i n v = .ok m') :
    Memory.wf m' = true := by
  obtain ⟨hn, rfl⟩ := memWrite_ok h
  exact Memory.wf_writeLE hm hn

/-- The payload arrays of the reset state list nothing. -/
theorem reset_payloads_wf : Memory.wf State.reset.inp.p = true ∧ Memory.wf State.reset.out.p = true := ⟨rfl, rfl⟩

@[simp] theorem State.complete_ok (s : State) (o : Outputs) : s.complete (.ok o) = .next (s.drive o) := rfl
@[simp] theorem State.complete_error (s : State) (f : Fault) : s.complete (.error f) = .fault f := rfl

/-- All a completed transaction can do: drive the outputs; nothing else changes. -/
theorem State.complete_next {s t : State} {r : Except Fault Outputs} (h : s.complete r = .next t) :
    r = .ok t.out ∧ t = s.drive t.out := by
  cases r with
  | ok o => cases h; exact ⟨rfl, rfl⟩
  | error f => cases h

/-- All a step can do: run the decoded instruction, or refuse a reserved `op`. -/
theorem step_cases (s : State) :
    (∃ i, decode s.inp = .ok i ∧ step s = exec i s) ∨
    (9 ≤ s.inp.op.toNat ∧ step s = .refused (.reservedOp s.inp.op)) := by
  by_cases h : s.inp.op.toNat < 9
  · obtain ⟨i, hi⟩ := (decode_ok_iff s.inp).2 h
    exact .inl ⟨i, hi, by simp [step, hi]⟩
  · have h9 : 9 ≤ s.inp.op.toNat := by omega
    exact .inr ⟨h9, by simp [step, decode_reserved h9, refusalOf]⟩

end Sys2Proof.Machine
end

