-- ==== Sys2Proof/Laws/Exec.lean ====
section
/-! SUPPORT. Each meaning's next state with its payload accesses done, and what every instruction leaves unchanged. -/

namespace Sys2Proof.Machine

/-- The Status payload as the writes that make it. -/
def statusArray (uptime : Word) (loopback : Bool) (temperature voltage adc : Word) : Memory :=
  Memory.writeLE (Memory.writeLE (Memory.writeLE [] 0 4 ((statusWord uptime loopback temperature).setWidth 64))
    4 2 (voltage.setWidth 64)) 6 2 (adc.setWidth 64)

/-- The Control payload as the write that makes it. -/
def controlArray (reset canLoopback : Bool) : Memory :=
  Memory.writeLE [] 0 1 ((controlByte reset canLoopback).setWidth 64)

/-- The Distance payload as the writes that make it; the padding write stores 0 where nothing is listed. -/
def distanceArray (o : DistWordOffset) (distance lux : Word) (overRange sensorOk : Bool) : Memory :=
  Memory.writeLE (Memory.writeLE [] 0 2 (distance.setWidth 64)) (offsetOf o) 4
    ((distanceWord lux overRange sensorOk).setWidth 64)

/-- The Status payload's accesses lie inside the array. -/
theorem statusPayload_eq (uptime : Word) (loopback : Bool) (temperature voltage adc : Word) :
    statusPayload uptime loopback temperature voltage adc =
      .ok (statusArray uptime loopback temperature voltage adc) := rfl

theorem wf_statusArray (uptime : Word) (loopback : Bool) (temperature voltage adc : Word) :
    Memory.wf (statusArray uptime loopback temperature voltage adc) = true :=
  Memory.wf_writeLE (Memory.wf_writeLE (Memory.wf_writeLE rfl (by decide)) (by decide)) (by decide)

theorem wf_controlArray (reset canLoopback : Bool) : Memory.wf (controlArray reset canLoopback) = true :=
  Memory.wf_writeLE rfl (by decide)

theorem offsetOf_le (o : DistWordOffset) : 2 ≤ offsetOf o ∧ offsetOf o + 4 ≤ 8 := by cases o <;> decide

theorem wf_distanceArray (o : DistWordOffset) (distance lux : Word) (overRange sensorOk : Bool) :
    Memory.wf (distanceArray o distance lux overRange sensorOk) = true :=
  Memory.wf_writeLE (Memory.wf_writeLE rfl (by decide)) (offsetOf_le o).2

/-- The Distance payload's accesses lie inside the array, and the padding write changes nothing. -/
theorem distancePayload_eq (o : DistWordOffset) (distance lux : Word) (overRange sensorOk : Bool) :
    distancePayload o distance lux overRange sensorOk = .ok (distanceArray o distance lux overRange sensorOk) := by
  have hw : Memory.wf (Memory.writeLE [] 0 2 (distance.setWidth 64)) = true := Memory.wf_writeLE rfl (by decide)
  have hpad : Memory.writeLE (Memory.writeLE [] 0 2 (distance.setWidth 64)) 2 2 0 =
      Memory.writeLE [] 0 2 (distance.setWidth 64) := by
    refine Memory.wf_ext (Memory.wf_writeLE hw (by decide)) hw fun a => ?_
    rw [Memory.read_writeLE hw (by decide)]
    split
    · rw [Memory.read_writeLE rfl (by decide), if_neg (by omega)]; simp
    · rfl
  cases o with
  | two => rfl
  | four =>
    exact congrArg (fun m => Except.ok (Memory.writeLE m 4 4 ((distanceWord lux overRange sensorOk).setWidth 64))) hpad

theorem exec_encode (source destination kind : Word) (s : State) :
    exec (.encode source destination kind) s = .next (s.drive { Outputs.zero with
      word := enc source destination kind, err := errorCode .noError }) := rfl

theorem exec_decode (word : Word) (s : State) :
    exec (.decode word) s = .next (s.drive { Outputs.zero with
      src := (dec word).src, dst := (dec word).dst, kind := (dec word).kind.setWidth 8,
      err := errorCode .noError }) := rfl

theorem exec_identify (word : Word) (s : State) :
    exec (.identify word) s = .next (s.drive { Outputs.zero with
      src := (dec word).src, dst := (dec word).dst, kind := reportedKind s.validKinds (dec word).kind,
      err := errorCode (identifyError s.validKinds (dec word)) }) := rfl

theorem exec_buildStatus (uptime : Word) (loopback : Bool) (temperature voltage adc : Word) (s : State) :
    exec (.buildStatus uptime loopback temperature voltage adc) s = .next (s.drive { Outputs.zero with
      word := headerWord .host .sensorNode .status,
      p := statusArray uptime loopback temperature voltage adc,
      len := 8, err := errorCode (statusError uptime voltage adc) }) := rfl

theorem exec_parseStatus (p : Memory) (len : BitVec 4) (s : State) :
    exec (.parseStatus p len) s = .next (s.drive { Outputs.zero with
      f0 := fieldWord 0 24 (Memory.readLE p 0 4), b0 := (Memory.readLE p 0 4).getLsbD 24,
      f1 := fieldWord 25 7 (Memory.readLE p 0 4), f2 := fieldWord 0 16 (Memory.readLE p 4 2),
      f3 := fieldWord 0 16 (Memory.readLE p 6 2), err := errorCode .noError }) := rfl

theorem exec_buildControl (reset canLoopback : Bool) (s : State) :
    exec (.buildControl reset canLoopback) s = .next (s.drive { Outputs.zero with
      word := headerWord .host .sensorNode .control,
      p := controlArray reset canLoopback,
      len := 1, err := errorCode .noError }) := rfl

theorem exec_parseControl (p : Memory) (len : BitVec 4) (s : State) :
    exec (.parseControl p len) s = .next (s.drive { Outputs.zero with
      b0 := (Memory.readLE p 0 1).getLsbD 0, b1 := (Memory.readLE p 0 1).getLsbD 1,
      err := errorCode .noError }) := rfl

theorem exec_buildDistance (distance lux : Word) (overRange sensorOk : Bool) (s : State) :
    exec (.buildDistance distance lux overRange sensorOk) s = .next (s.drive { Outputs.zero with
      word := headerWord .sensorNode .host .distance,
      p := distanceArray s.cfg.distWordOffset distance lux overRange sensorOk,
      len := BitVec.ofNat 4 (distLen s.cfg.distWordOffset), err := errorCode (distanceError distance lux) }) := by
  rw [exec, execBuildDistance, distancePayload_eq]; rfl

theorem exec_parseDistance (p : Memory) (len : BitVec 4) (s : State) :
    exec (.parseDistance p len) s = .next (s.drive { Outputs.zero with
      f0 := fieldWord 0 16 (Memory.readLE p 0 2),
      f1 := fieldWord 0 30 (Memory.readLE p (offsetOf s.cfg.distWordOffset) 4),
      b0 := (Memory.readLE p (offsetOf s.cfg.distWordOffset) 4).getLsbD 30,
      b1 := (Memory.readLE p (offsetOf s.cfg.distWordOffset) 4).getLsbD 31, err := errorCode .noError }) := by
  rw [exec, execParseDistance, memRead_eq p (by decide : 0 + 2 ≤ 8), memRead_eq p (offsetOf_le s.cfg.distWordOffset).2]; rfl

/-- Every instruction drives outputs and completes; nothing but the output ports changes. -/
theorem exec_drives (i : Instr) (s : State) : ∃ o, exec i s = .next (s.drive o) := by
  cases i with
  | encode => exact ⟨_, exec_encode ..⟩
  | decode => exact ⟨_, exec_decode ..⟩
  | identify => exact ⟨_, exec_identify ..⟩
  | buildStatus => exact ⟨_, exec_buildStatus ..⟩
  | parseStatus => exact ⟨_, exec_parseStatus ..⟩
  | buildControl => exact ⟨_, exec_buildControl ..⟩
  | parseControl => exact ⟨_, exec_parseControl ..⟩
  | buildDistance => exact ⟨_, exec_buildDistance ..⟩
  | parseDistance => exact ⟨_, exec_parseDistance ..⟩

/-- An instruction that answers a next state changes the output ports and nothing else. -/
theorem exec_next {i : Instr} {s t : State} (h : exec i s = .next t) : t = s.drive t.out := by
  obtain ⟨o, ho⟩ := exec_drives i s
  rw [ho] at h
  cases h
  rfl

/-- The outputs of an instruction are driven over whatever stood on the ports before. -/
theorem exec_present (i : Instr) (s : State) (t : Inputs) (o : Outputs) :
    exec i ((s.present t).drive o) = match exec i s with
      | .next s' => .next ((s.present t).drive s'.out)
      | .fault f => .fault f
      | .refused r => .refused r := by
  cases i <;> simp only [exec_encode, exec_decode, exec_identify, exec_buildStatus, exec_parseStatus, exec_buildControl,
    exec_parseControl, exec_buildDistance, exec_parseDistance, State.drive_drive, State.drive_out, State.drive_validKinds,
    State.present_validKinds, State.drive_cfg, State.present_cfg]

end Sys2Proof.Machine
end

