-- ==== Sys2Proof/Laws/Operands.lean ====
section
/-! SUPPORT. The packed words, the header codec, the extractions and the checks as plain arithmetic on natural numbers. -/

namespace Sys2Proof.Machine

/-- OR of a low part and a part shifted past it is their sum. -/
theorem or_shift_eq_add {lo : Nat} (n hi : Nat) (h : lo < 2 ^ n) : lo ||| hi * 2 ^ n = lo + hi * 2 ^ n := by
  rw [Nat.or_comm, Nat.mul_comm, ← Nat.two_pow_add_eq_or_of_lt h, Nat.add_comm]

@[simp] theorem flagWord_toNat (b : Bool) : (flagWord b).toNat = b.toNat := by cases b <;> rfl

theorem flag_le (b : Bool) : b.toNat ≤ 1 := by cases b <;> decide

/-- The addressing word (R63, R100). -/
theorem enc_toNat (s d k : Word) : (enc s d k).toNat = s.toNat % 8 + d.toNat % 8 * 8 + k.toNat % 32 * 64 := by
  have h3 : ∀ x : Nat, x % 8 < 2 ^ 3 := fun x => by omega
  simp only [enc, BitVec.toNat_setWidth, BitVec.toNat_append, Nat.shiftLeft_eq]
  rw [Nat.or_comm (k.toNat % 2 ^ 5 * 2 ^ 3), or_shift_eq_add 3 _ (by omega), Nat.or_comm, or_shift_eq_add 3 _ (by omega)]
  omega

theorem dec_src_toNat (w : Word) : (dec w).src.toNat = w.toNat % 8 := by
  simp [dec, BitVec.extractLsb'_toNat]

theorem dec_dst_toNat (w : Word) : (dec w).dst.toNat = w.toNat / 8 % 8 := by
  simp [dec, BitVec.extractLsb'_toNat, Nat.shiftRight_eq_div_pow]

theorem dec_kind_toNat (w : Word) : (dec w).kind.toNat = w.toNat / 64 % 32 := by
  simp [dec, BitVec.extractLsb'_toNat, Nat.shiftRight_eq_div_pow]

/-- Bits 31:11 are not read (R64). -/
theorem dec_congr {w w' : Word} (h : w.toNat % 2 ^ 11 = w'.toNat % 2 ^ 11) : dec w = dec w' := by
  have hs : (dec w).src = (dec w').src := BitVec.eq_of_toNat_eq (by rw [dec_src_toNat, dec_src_toNat]; omega)
  have hd : (dec w).dst = (dec w').dst := BitVec.eq_of_toNat_eq (by rw [dec_dst_toNat, dec_dst_toNat]; omega)
  have hk : (dec w).kind = (dec w').kind := BitVec.eq_of_toNat_eq (by rw [dec_kind_toNat, dec_kind_toNat]; omega)
  cases hw : dec w
  cases hw' : dec w'
  simp_all

/-- W0 of the Status payload (R69). -/
theorem statusWord_toNat (uptime : Word) (loopback : Bool) (temperature : Word) :
    (statusWord uptime loopback temperature).toNat =
      uptime.toNat % 2 ^ 24 + loopback.toNat * 2 ^ 24 + temperature.toNat % 2 ^ 7 * 2 ^ 25 := by
  have hl := flag_le loopback
  simp only [statusWord, BitVec.toNat_or, BitVec.toNat_shiftLeft, BitVec.toNat_setWidth, flagWord_toNat, Nat.shiftLeft_eq]
  rw [Nat.mod_eq_of_lt (a := loopback.toNat * 2 ^ 24) (by omega), Nat.mod_eq_of_lt (b := 2 ^ 32) (by omega),
    Nat.mod_eq_of_lt (a := temperature.toNat % 2 ^ 7 % 2 ^ 32 * 2 ^ 25) (by omega),
    or_shift_eq_add 24 _ (by omega), or_shift_eq_add 25 _ (by omega)]
  omega

/-- W1 of the Distance payload (R71). -/
theorem distanceWord_toNat (lux : Word) (overRange sensorOk : Bool) :
    (distanceWord lux overRange sensorOk).toNat =
      lux.toNat % 2 ^ 30 + overRange.toNat * 2 ^ 30 + sensorOk.toNat * 2 ^ 31 := by
  have ho := flag_le overRange
  have hk := flag_le sensorOk
  simp only [distanceWord, BitVec.toNat_or, BitVec.toNat_shiftLeft, BitVec.toNat_setWidth, flagWord_toNat, Nat.shiftLeft_eq]
  rw [Nat.mod_eq_of_lt (a := overRange.toNat * 2 ^ 30) (by omega), Nat.mod_eq_of_lt (b := 2 ^ 32) (by omega),
    Nat.mod_eq_of_lt (a := sensorOk.toNat * 2 ^ 31) (by omega),
    or_shift_eq_add 30 _ (by omega), or_shift_eq_add 31 _ (by omega)]

/-- The Control byte (R70). -/
theorem controlByte_toNat (reset canLoopback : Bool) :
    (controlByte reset canLoopback).toNat = reset.toNat + canLoopback.toNat * 2 := by
  cases reset <;> cases canLoopback <;> rfl

/-- An extracted field (R74). -/
theorem fieldWord_toNat (lo w : Nat) (v : Wide) (hw : w ≤ 32) :
    (fieldWord lo w v).toNat = v.toNat / 2 ^ lo % 2 ^ w := by
  have h1 : (2 : Nat) ^ w ≤ 2 ^ 32 := Nat.pow_le_pow_right (by decide) hw
  have h2 : v.toNat / 2 ^ lo % 2 ^ w < 2 ^ w := Nat.mod_lt _ (Nat.two_pow_pos w)
  simp only [fieldWord, BitVec.toNat_setWidth, BitVec.extractLsb'_toNat, Nat.shiftRight_eq_div_pow]
  exact Nat.mod_eq_of_lt (by omega)

/-- A byte of a value MemWrite stores. -/
theorem byteOf_toNat (lo : Nat) (v : Wide) : (v.extractLsb' lo 8).toNat = v.toNat / 2 ^ lo % 2 ^ 8 := by
  simp only [BitVec.extractLsb'_toNat, Nat.shiftRight_eq_div_pow]

/-- MemRead's value is the first byte plus 256 times the value that follows it (R41). -/
theorem readLE_succ_toNat (m : Memory) (i n : Nat) (hn : n < 8) :
    (Memory.readLE m i (n + 1)).toNat = (Memory.read m i).toNat + (Memory.readLE m (i + 1) n).toNat * 2 ^ 8 := by
  have hb := (Memory.read m i).isLt
  have hlt : (Memory.readLE m (i + 1) n).toNat < 2 ^ (8 * n) := by
    apply Nat.lt_pow_two_of_testBit
    intro k hk
    have := Memory.getLsbD_readLE m n (i + 1) k (by omega)
    rw [BitVec.getLsbD] at this
    rw [this, decide_eq_false (by omega)]
    rfl
  have h56 : (2 : Nat) ^ (8 * n) ≤ 2 ^ 56 := Nat.pow_le_pow_right (by decide) (by omega)
  simp only [Memory.readLE, BitVec.toNat_or, BitVec.toNat_setWidth, BitVec.toNat_shiftLeft, Nat.shiftLeft_eq]
  rw [Nat.mod_eq_of_lt (a := (Memory.read m i).toNat) (by omega), Nat.mod_eq_of_lt (b := 2 ^ 64) (by omega),
    or_shift_eq_add 8 _ (by omega)]

theorem readLE_zero_toNat (m : Memory) (i : Nat) : (Memory.readLE m i 0).toNat = 0 := rfl

/-- MemRead(i, 2) and MemRead(i, 4) as sums of bytes (R41). -/
theorem readLE_two_toNat (m : Memory) (i : Nat) :
    (Memory.readLE m i 2).toNat = (Memory.read m i).toNat + (Memory.read m (i + 1)).toNat * 256 := by
  rw [readLE_succ_toNat _ _ _ (by decide), readLE_succ_toNat _ _ _ (by decide), readLE_zero_toNat]
  omega

theorem readLE_four_toNat (m : Memory) (i : Nat) :
    (Memory.readLE m i 4).toNat = (Memory.read m i).toNat + (Memory.read m (i + 1)).toNat * 256 +
      (Memory.read m (i + 2)).toNat * 65536 + (Memory.read m (i + 3)).toNat * 16777216 := by
  rw [readLE_succ_toNat _ _ _ (by decide), readLE_succ_toNat _ _ _ (by decide), readLE_two_toNat]
  simp only [Nat.add_assoc, Nat.reduceAdd]
  omega

/-- The code of IDENTIFY's id checks: equal ids win over a bad destination, which wins over a bad source (R120). -/
theorem deviceIdError_eq (h : Header) : errorCode (deviceIdError h) =
    if h.src.toNat = h.dst.toNat then 3 else if 1 < h.dst.toNat then 2 else if 1 < h.src.toNat then 3 else 0 := by
  obtain ⟨src, dst, kind⟩ := h
  simp only [deviceIdError, check, BitVec.toNat_inj, gt_iff_lt, BitVec.lt_def, decide_eq_true_eq,
    show (1 : BitVec 3).toNat = 1 from rfl]
  repeat' split
  all_goals rfl

/-- BUILD_STATUS's code (R75). -/
theorem statusError_eq (uptime voltage adc : Word) : errorCode (statusError uptime voltage adc) =
    if uptime.toNat ≤ 16777215 ∧ voltage.toNat ≤ 4000 ∧ adc.toNat ≤ 16000 then 0 else 4 := by
  simp only [statusError, check, gt_iff_lt, BitVec.lt_def, decide_eq_true_eq,
    show (16777215 : Word).toNat = 16777215 from rfl, show (4000 : Word).toNat = 4000 from rfl,
    show (16000 : Word).toNat = 16000 from rfl]
  repeat' split
  all_goals first | rfl | (exfalso; omega)

/-- BUILD_DISTANCE's code (R75). -/
theorem distanceError_eq (distance lux : Word) : errorCode (distanceError distance lux) =
    if distance.toNat ≤ 300 ∧ lux.toNat ≤ 100000 then 0 else 5 := by
  simp only [distanceError, check, gt_iff_lt, BitVec.lt_def, decide_eq_true_eq,
    show (300 : Word).toNat = 300 from rfl, show (100000 : Word).toNat = 100000 from rfl]
  repeat' split
  all_goals first | rfl | (exfalso; omega)

/-- Membership in the hardwired table is being one of the three wire codes (10_state.md R23). -/
theorem mem_validKinds (k : BitVec 5) : k ∈ Config.validKinds ↔ k.toNat ≤ 2 := by
  constructor
  · intro h
    simp [Config.validKinds] at h
    rcases h with h | h | h <;> subst h <;> decide
  · intro h
    have : k = BitVec.ofNat 5 k.toNat := by simp
    rw [this]
    generalize k.toNat = n at h
    match n, h with
    | 0, _ => decide
    | 1, _ => decide
    | 2, _ => decide

end Sys2Proof.Machine
end

