-- ==== Sys2Proof/Laws/PerInstr.lean ====
section
/-! SUPPORT. Family EncodeDecode: for each instruction as syntax, its encoding decodes to it (30_encoding.md R60, R62, R78). -/

namespace Sys2Proof.Laws.EncodeDecode

/-- The encoding of an instruction decodes to that instruction. -/
def Statement (i : Instr) : Prop := Sys2Proof.decode (Sys2Proof.encode i) = .ok i

theorem encode (source destination kind : Word) : Statement (.encode source destination kind) := rfl
theorem decode (word : Word) : Statement (.decode word) := rfl
theorem identify (word : Word) : Statement (.identify word) := rfl
theorem buildStatus (uptime : Word) (loopback : Bool) (temperature voltage adc : Word) :
    Statement (.buildStatus uptime loopback temperature voltage adc) := rfl
theorem parseStatus (p : Memory) (len : BitVec 4) : Statement (.parseStatus p len) := rfl
theorem buildControl (reset canLoopback : Bool) : Statement (.buildControl reset canLoopback) := rfl
theorem parseControl (p : Memory) (len : BitVec 4) : Statement (.parseControl p len) := rfl
theorem buildDistance (distance lux : Word) (overRange sensorOk : Bool) :
    Statement (.buildDistance distance lux overRange sensorOk) := rfl
theorem parseDistance (p : Memory) (len : BitVec 4) : Statement (.parseDistance p len) := rfl

end Sys2Proof.Laws.EncodeDecode
end

