-- ==== Sys2Proof/Tests/Slice0.lean ====
section
/-! SUPPORT. Tests on fixed values and witnesses. Every expected value is written out from spec/: the encodings of
30_encoding.md R60, the vectors of 95_test_vectors.md by their ids, or the rule named beside it. -/

namespace Sys2Proof.Tests

open Sys2Proof Sys2Proof.Machine

/-- The outputs of one transaction presented after reset. -/
def run (t : Inputs) : Option Outputs := outputsOf (step (State.reset.present t))

/-- The reset state of a unit whose DIST_WORD_OFFSET is 4. -/
def reset4 : State := { State.reset with cfg := { distWordOffset := .four } }

/-! ## Decoding: the `op` bits of R60, one word for each constructor -/

theorem test_decode_word_encode : decodeTableWord 8 0b0000 = some (.encode 0 0 0) := by decide
theorem test_decode_word_decode : decodeTableWord 8 0b0001 = some (.decode 0) := by decide
theorem test_decode_word_identify : decodeTableWord 8 0b0010 = some (.identify 0) := by decide
theorem test_decode_word_buildStatus : decodeTableWord 8 0b0011 = some (.buildStatus 0 false 0 0 0) := by decide
theorem test_decode_word_parseStatus : decodeTableWord 8 0b0100 = some (.parseStatus [] 0) := by decide
theorem test_decode_word_buildControl : decodeTableWord 8 0b0101 = some (.buildControl false false) := by decide
theorem test_decode_word_parseControl : decodeTableWord 8 0b0110 = some (.parseControl [] 0) := by decide
theorem test_decode_word_buildDistance : decodeTableWord 8 0b0111 = some (.buildDistance 0 0 false false) := by decide
theorem test_decode_word_parseDistance : decodeTableWord 8 0b1000 = some (.parseDistance [] 0) := by decide
theorem test_decode_word_reserved : decodeTableWord 8 0b1001 = none ∧ decodeTableWord 8 0b1111 = none := by decide

/-- P1's first line: every operand port of BUILD_STATUS reaches its own operand (R62). -/
theorem test_decode_operands_buildStatus :
    decode { Inputs.zero with op := 0x3, f0 := 0x00123456, b0 := true, f1 := 0x19, f2 := 0xCE4, f3 := 0x2EE0, word := 9, b1 := true } =
      .ok (.buildStatus 0x123456 true 25 3300 12000) := rfl

/-- P2's first line: the two flags of BUILD_DISTANCE are not swapped (R62). -/
theorem test_decode_operands_buildDistance :
    decode { Inputs.zero with op := 0x7, f0 := 0x12D, f1 := 0x186A1, b0 := false, b1 := true } =
      .ok (.buildDistance 301 100001 false true) := rfl

/-- The table word on the ports runs as the first instruction after reset. -/
theorem test_withFetchWord_runs : outputsOf (step (State.reset.withFetchWord 8 0b0101)) =
    some { Outputs.zero with word := 0x41, len := 1 } := by decide

/-- X1, X2: a reserved `op` has no outputs. -/
theorem test_reserved_op_refused : run { Inputs.zero with op := 0x9 } = none ∧ run { Inputs.zero with op := 0xF } = none := by
  decide

/-! ## WellFormed: an ill-formed term for each check -/

theorem test_wf_payload : (Instr.parseStatus [(0, 5), (7, 1)] 8).wf = true := by decide
theorem test_illformed_index : (Instr.parseStatus [(8, 1)] 8).wf = false := by decide
theorem test_illformed_order : (Instr.parseControl [(1, 1), (0, 1)] 1).wf = false := by decide
theorem test_illformed_repeat : (Instr.parseControl [(1, 1), (1, 2)] 1).wf = false := by decide
theorem test_illformed_listed_zero : (Instr.parseDistance [(0, 0)] 6).wf = false := by decide
theorem test_illformed_reserved_op : Inputs.wf { Inputs.zero with op := 0x9 } = false := by decide
theorem test_illformed_presented_payload : Inputs.wf { Inputs.zero with op := 0x4, p := [(9, 1)] } = false := by decide

/-! ## The operations, on the spec's vectors -/

/-- E6 -/
theorem test_encode_truncates : run (encode (.encode 9 10 33)) = some { Outputs.zero with word := 0x51 } := by decide
/-- E5 -/
theorem test_encode_unknown_kind : run (encode (.encode 1 0 254)) = some { Outputs.zero with word := 0x781 } := by decide
/-- E10 -/
theorem test_decode_ignores_reserved : run (encode (.decode 0xFFFFF801)) = some { Outputs.zero with src := 1 } := by decide
/-- E9 -/
theorem test_decode_fields : run (encode (.decode 0x88)) = some { Outputs.zero with dst := 1, kind := 2 } := by decide
/-- H10: source 3, destination 2, the last check that fires is the destination's. -/
theorem test_identify_last_check : run (encode (.identify 0x13)) =
    some { Outputs.zero with err := 2, src := 3, dst := 2 } := by decide
/-- S3 -/
theorem test_identify_bad_kind : run (encode (.identify 0xC1)) =
    some { Outputs.zero with err := 1, src := 1, kind := 254 } := by decide
/-- T4 -/
theorem test_buildStatus_payload : run (encode (.buildStatus 0x123456 true 25 3300 12000)) =
    some { Outputs.zero with
      word := 1, len := 8, p := payloadOfBytes [0x56, 0x34, 0x12, 0x33, 0xE4, 0x0C, 0xE0, 0x2E] } := by decide
/-- T6 -/
theorem test_buildStatus_fail_open : run (encode (.buildStatus 5 true 200 70000 16001)) =
    some { Outputs.zero with
      word := 1, len := 8, err := 4,
      p := payloadOfBytes [0x05, 0x00, 0x00, 0x91, 0x70, 0x11, 0x81, 0x3E] } := by decide
/-- R150's example -/
theorem test_parseStatus : run (encode (.parseStatus (payloadOfBytes [0xFF, 0xFF, 0xFF, 0xFF, 0xA0, 0x0F, 0x80, 0x3E]) 3)) =
    some { Outputs.zero with f0 := 16777215, b0 := true, f1 := 127, f2 := 4000, f3 := 16000 } := by decide
/-- K2 -/
theorem test_buildControl : run (encode (.buildControl false true)) =
    some { Outputs.zero with word := 0x41, len := 1, p := [(0, 0x02)] } := by decide
/-- P4's noisy byte -/
theorem test_parseControl : run (encode (.parseControl (payloadOfBytes [0xFD]) 1)) =
    some { Outputs.zero with b0 := true } := by decide
/-- V4, O = 2 -/
theorem test_buildDistance_offset2 : run (encode (.buildDistance 150 54321 true true)) =
    some { Outputs.zero with
      word := 0x88, len := 6, p := payloadOfBytes [0x96, 0x00, 0x31, 0xD4, 0x00, 0xC0] } := by decide
/-- V4, O = 4 -/
theorem test_buildDistance_offset4 : outputsOf (exec (.buildDistance 150 54321 true true) reset4) =
    some { Outputs.zero with
      word := 0x88, len := 8, p := payloadOfBytes [0x96, 0x00, 0x00, 0x00, 0x31, 0xD4, 0x00, 0xC0] } := by decide
/-- V2, O = 2 -/
theorem test_parseDistance_offset2 : run (encode (.parseDistance (payloadOfBytes [0x2C, 0x01, 0xA0, 0x86, 0x01, 0x80]) 6)) =
    some { Outputs.zero with f0 := 300, f1 := 100000, b1 := true } := by decide
/-- section 2.5's last vector: with O = 4 the padding bytes are ignored -/
theorem test_parseDistance_offset4 :
    outputsOf (exec (.parseDistance (payloadOfBytes [0x2C, 0x01, 0xEE, 0xEE, 0xA0, 0x86, 0x01, 0x80]) 8) reset4) =
      some { Outputs.zero with f0 := 300, f1 := 100000, b1 := true } := by decide

/-! ## Witnesses: for each statement with hypotheses, values that meet them -/

theorem witness_OpSelectsOperation :
    (∀ op : BitVec 4, ({ Inputs.zero with op := op } : Inputs).op = op) ∧
    9 ≤ ({ Inputs.zero with op := 0x9 } : Inputs).op.toNat ∧ 9 ≤ ({ Inputs.zero with op := 0xF } : Inputs).op.toNat ∧
    ¬ 9 ≤ ({ Inputs.zero with op := 0x8 } : Inputs).op.toNat := ⟨fun _ => rfl, by decide⟩

theorem witness_StepRunsDecodedInstruction :
    decode (State.reset.present (encode (.identify 0x88))).inp = .ok (.identify 0x88) := rfl

theorem witness_ReservedOpIsRefused :
    9 ≤ (State.reset.present { Inputs.zero with op := 0x9 }).inp.op.toNat ∧
    9 ≤ (State.reset.present { Inputs.zero with op := 0xF }).inp.op.toNat := by decide

theorem witness_DecodeEncodeAgree :
    (Instr.parseStatus [(0, 5), (7, 1)] 8).wf = true ∧
    decode { Inputs.zero with op := 0x1, word := 7, f0 := 3 } = .ok (.decode 7) ∧
    listedInputs { Inputs.zero with op := 0x1, word := 7, f0 := 3 } =
      listedInputs { Inputs.zero with op := 0x1, word := 7, f0 := 4 } := ⟨by decide, rfl, by decide⟩

theorem witness_EncodePacksHeader : ({ Inputs.zero with op := 0x0, f0 := 9 } : Inputs).op = 0x0 := by decide
theorem witness_DecodeUnpacksHeader : ({ Inputs.zero with op := 0x1, word := 9 } : Inputs).op = 0x1 := by decide

/-- The largest values that fit, and the smallest. -/
theorem witness_EncodeThenDecode :
    ((7 : Word).toNat < 8 ∧ (7 : Word).toNat < 8 ∧ (31 : Word).toNat < 32) ∧
    ((0 : Word).toNat < 8 ∧ (0 : Word).toNat < 8 ∧ (0 : Word).toNat < 32) := by decide

theorem witness_HeaderReservedBits :
    (∃ t, exec (.encode 0xFFFFFFFF 0xFFFFFFFF 0xFFFFFFFF) State.reset = .next t) ∧
    (0xFFFFF801 : Word).toNat % 2 ^ 11 = (0x1 : Word).toNat % 2 ^ 11 := ⟨⟨_, rfl⟩, by decide⟩

theorem witness_TableHardwired : State.reset.TableHardwired := by decide

theorem witness_IdentifyReportsLastCheck :
    ({ Inputs.zero with op := 0x2, word := 0x12 } : Inputs).op = 0x2 ∧ State.reset.TableHardwired := by decide

/-- One word at a boundary for each row of R121: ids 0 and 1, 2 and 7, kinds 2, 3 and 31. -/
theorem witness_IdentifyOutcomeTable :
    State.reset.TableHardwired ∧
    ((0x88 : Word).toNat / 64 % 32 ≤ 2 ∧ (0x88 : Word).toNat % 8 ≤ 1 ∧ (0x88 : Word).toNat / 8 % 8 ≤ 1 ∧
      (0x88 : Word).toNat % 8 ≠ (0x88 : Word).toNat / 8 % 8) ∧
    ((0x89 : Word).toNat / 64 % 32 ≤ 2 ∧ (0x89 : Word).toNat % 8 ≤ 1 ∧ (0x89 : Word).toNat / 8 % 8 ≤ 1 ∧
      (0x89 : Word).toNat % 8 = (0x89 : Word).toNat / 8 % 8) ∧
    ((0x8A : Word).toNat / 64 % 32 ≤ 2 ∧ 2 ≤ (0x8A : Word).toNat % 8 ∧ (0x8A : Word).toNat / 8 % 8 ≤ 1) ∧
    ((0x91 : Word).toNat / 64 % 32 ≤ 2 ∧ (0x91 : Word).toNat % 8 ≤ 1 ∧ 2 ≤ (0x91 : Word).toNat / 8 % 8) ∧
    ((0x97 : Word).toNat / 64 % 32 ≤ 2 ∧ 2 ≤ (0x97 : Word).toNat % 8 ∧ 2 ≤ (0x97 : Word).toNat / 8 % 8 ∧
      (0x97 : Word).toNat % 8 ≠ (0x97 : Word).toNat / 8 % 8) ∧
    ((0x92 : Word).toNat / 64 % 32 ≤ 2 ∧ 2 ≤ (0x92 : Word).toNat % 8 ∧ 2 ≤ (0x92 : Word).toNat / 8 % 8 ∧
      (0x92 : Word).toNat % 8 = (0x92 : Word).toNat / 8 % 8) ∧
    3 ≤ (0xC1 : Word).toNat / 64 % 32 ∧ 3 ≤ (0x7FF : Word).toNat / 64 % 32 := by decide

theorem witness_IdentifyPassesExactlyValidWords :
    State.reset.TableHardwired ∧ (0x7FF : Word).toNat < 2 ^ 11 ∧ (0x0 : Word).toNat < 2 ^ 11 := by decide

theorem witness_IdentifyChecksNoDirection :
    State.reset.TableHardwired ∧ (0x081 : Word) ∈ [0x081, 0x008, (0x048 : Word)] ∧
    (0x008 : Word) ∈ [0x081, 0x008, (0x048 : Word)] ∧ (0x048 : Word) ∈ [0x081, 0x008, (0x048 : Word)] := by decide

/-- A passing word of each kind, and a failing one. -/
theorem witness_DispatchFollowsReportedKind :
    ((run (encode (.identify 0x001))).map (·.err) = some 0 ∧ (0x001 : Word).toNat / 64 % 32 = 0) ∧
    ((run (encode (.identify 0x041))).map (·.err) = some 0 ∧ (0x041 : Word).toNat / 64 % 32 = 1) ∧
    ((run (encode (.identify 0x088))).map (·.err) = some 0 ∧ (0x088 : Word).toNat / 64 % 32 = 2) ∧
    (run (encode (.identify 0x0C1))).map (·.err) ≠ some 0 := by decide

theorem witness_BuildStatusFrame : ({ Inputs.zero with op := 0x3 } : Inputs).op = 0x3 := by decide
theorem witness_ParseStatusFields : ({ Inputs.zero with op := 0x4 } : Inputs).op = 0x4 := by decide
theorem witness_BuildControlFrame : ({ Inputs.zero with op := 0x5 } : Inputs).op = 0x5 := by decide
theorem witness_ParseControlFlags : ({ Inputs.zero with op := 0x6 } : Inputs).op = 0x6 := by decide
theorem witness_BuildDistanceFrame : ({ Inputs.zero with op := 0x7 } : Inputs).op = 0x7 := by decide

/-- Operands that agree after truncation, the first tuple passing the checks and the second failing them. -/
theorem witness_StatusFailOpen :
    (0 : Word).toNat % 2 ^ 24 = (16777216 : Word).toNat % 2 ^ 24 ∧ (0 : Word).toNat % 2 ^ 7 = (128 : Word).toNat % 2 ^ 7 ∧
    (4000 : Word).toNat % 2 ^ 16 = (69536 : Word).toNat % 2 ^ 16 ∧
    (16000 : Word).toNat % 2 ^ 16 = (81536 : Word).toNat % 2 ^ 16 := by decide

theorem witness_TemperatureIsSevenBitUnsigned : (127 : Word).toNat % 2 ^ 7 = (255 : Word).toNat % 2 ^ 7 := by decide

theorem witness_DistanceFailOpen :
    State.reset.cfg = (State.reset.present { Inputs.zero with op := 0x7 }).cfg ∧
    (300 : Word).toNat % 2 ^ 16 = (65836 : Word).toNat % 2 ^ 16 ∧
    (0 : Word).toNat % 2 ^ 30 = (0x40000000 : Word).toNat % 2 ^ 30 := by decide

theorem witness_DistanceBoundIs300 : (100000 : Word).toNat ≤ 100000 ∧ (0 : Word).toNat ≤ 100000 := by decide

/-- Both values of the parameter. -/
theorem witness_ParseDistanceFields :
    ({ Inputs.zero with op := 0x8 } : Inputs).op = 0x8 ∧
    2 = (if State.reset.cfg.distWordOffset = .four then 4 else 2) ∧
    4 = (if reset4.cfg.distWordOffset = .four then 4 else 2) := by decide

theorem witness_DistanceRoundTrip :
    State.reset.cfg = (State.reset.drive { Outputs.zero with len := 6 }).cfg ∧
    reset4.cfg = (reset4.drive { Outputs.zero with len := 8 }).cfg := by decide

theorem witness_ErrorCodeCauses : State.reset.TableHardwired := by decide

theorem witness_InLenNeverRead : ∃ t, step (State.reset.present (encode (.parseStatus [] 8))) = .next t := ⟨_, rfl⟩

/-- Two states of one unit with the same inputs, left by different transactions. -/
theorem witness_OutputsDependOnlyOnInputs :
    State.reset.validKinds = (State.reset.drive { Outputs.zero with err := 5 }).validKinds ∧
    State.reset.cfg = (State.reset.drive { Outputs.zero with err := 5 }).cfg ∧
    State.reset.inp = (State.reset.drive { Outputs.zero with err := 5 }).inp := by decide

theorem witness_PayloadPortsAreSeparate :
    (State.reset.present { Inputs.zero with op := 0x0 }).inp.op ∈ [0x0, 0x1, 0x2, 0x3, 0x5, (0x7 : BitVec 4)] ∧
    (State.reset.present { Inputs.zero with op := 0x7 }).inp.op ∈ [0x0, 0x1, 0x2, 0x3, 0x5, (0x7 : BitVec 4)] ∧
    (State.reset.present { Inputs.zero with op := 0x2 }).inp.op ∈ [0x0, 0x1, 0x2, 0x4, 0x6, (0x8 : BitVec 4)] ∧
    (State.reset.present { Inputs.zero with op := 0x8 }).inp.op ∈ [0x0, 0x1, 0x2, 0x4, 0x6, (0x8 : BitVec 4)] := by decide

/-- Different payloads that agree on the listed bytes: byte 1 for PARSE_CONTROL, bytes 6 and 7 for PARSE_DISTANCE with
O = 2, the padding bytes with O = 4. -/
theorem witness_ParsersReadOnlyListedBytes :
    2 = (if State.reset.cfg.distWordOffset = .four then 4 else 2) ∧
    4 = (if reset4.cfg.distWordOffset = .four then 4 else 2) ∧
    (∀ a, a < 8 → Memory.read [(0, 1)] a = Memory.read [(0, 1)] a) ∧
    Memory.read [(0, 1), (1, 9)] 0 = Memory.read [(0, 1)] 0 ∧
    (∀ a, a < 2 ∨ (2 ≤ a ∧ a < 2 + 4) → Memory.read [(5, 1), (6, 9), (7, 9)] a = Memory.read [(5, 1)] a) ∧
    (∀ a, a < 2 ∨ (4 ≤ a ∧ a < 4 + 4) → Memory.read [(2, 9), (3, 9), (7, 1)] a = Memory.read [(7, 1)] a) := by
  refine ⟨by decide, by decide, fun _ _ => rfl, by decide, ?_, ?_⟩
  · intro a h
    have h6 : a ≠ 6 := by omega
    have h7 : a ≠ 7 := by omega
    simp [Memory.read, h6, h7]
  · intro a h
    have h2 : a ≠ 2 := by omega
    have h3 : a ≠ 3 := by omega
    simp [Memory.read, h2, h3]

theorem witness_PayloadAccessIsLittleEndian :
    4 + 4 ≤ 8 ∧ 0 + 8 ≤ 8 ∧ 8 + 0 ≤ 8 ∧ Memory.wf [(0, 1), (7, 2)] = true := by decide

theorem witness_ConstantTableIsReadOnly :
    (∃ t, step State.reset = .next t) ∧ State.reset.inp.op ≠ 0x2 := ⟨⟨_, rfl⟩, by decide⟩

theorem witness_FirstTransactionIsLikeAnyOther :
    (State.reset.drive { Outputs.zero with err := 5 }).TableHardwired ∧
    (State.reset.drive { Outputs.zero with err := 5 }).cfg = Config.default := by decide

theorem witness_StepChangesOnlyOutputs : ∃ t, step State.reset = .next t := ⟨_, rfl⟩
theorem witness_TransactionIsIdempotent : ∃ t, step (State.reset.present (encode (.identify 0xC1))) = .next t := ⟨_, rfl⟩

/-- A sound state that is not the reset state, with a step that completes. -/
theorem witness_StepKeepsSound :
    (State.reset.present (encode (.parseControl [(0, 0xFD)] 1))).Sound ∧
    ∃ t, step (State.reset.present (encode (.parseControl [(0, 0xFD)] 1))) = .next t :=
  ⟨⟨rfl, rfl, ⟨rfl, by decide, fun _ _ => rfl, by decide, by decide, .inl (by decide)⟩⟩, ⟨_, rfl⟩⟩

theorem witness_SequenceIsHistoryFree :
    ∀ t ∈ [encode (.identify 0x41), encode (.parseDistance [] 6)], t.op.toNat < 9 := by decide

theorem witness_BuiltFramesAreReceived :
    State.reset.TableHardwired ∧ State.reset.cfg = (State.reset.present (encode (.buildControl true true))).cfg ∧
    reset4.TableHardwired := by decide

theorem witness_UnitsShareNothing : (encode (.parseDistance [] 6)).op.toNat < 9 := by decide

end Sys2Proof.Tests
end

section
/-! PROOFS of 00_scope.md: the ports an operation does not name, and the payload bytes past its declared length, are
driven 0 (R12). A payload's writes end below its declared length, so no byte at or above that length is listed. -/

namespace Sys2Proof

/-- A multi-byte write leaves every byte past its last one. -/
theorem Memory.read_writeLE_of_ge {m : Memory} {i n a : Nat} {v : Wide} (h : Memory.wf m = true) (hn : i + n ≤ 8)
    (ha : i + n ≤ a) : Memory.read (Memory.writeLE m i n v) a = Memory.read m a := by
  rw [Memory.read_writeLE h hn, if_neg (by omega)]

end Sys2Proof

namespace Sys2Proof.Machine

theorem read_statusArray_of_ge {uptime temperature voltage adc : Word} {loopback : Bool} {a : Nat} (ha : 8 ≤ a) :
    Memory.read (statusArray uptime loopback temperature voltage adc) a = 0 :=
  Memory.read_above (wf_statusArray ..) ha

theorem read_controlArray_of_ge {reset canLoopback : Bool} {a : Nat} (ha : 1 ≤ a) :
    Memory.read (controlArray reset canLoopback) a = 0 :=
  Memory.read_writeLE_of_ge rfl (by decide) ha

theorem read_distanceArray_of_ge {o : DistWordOffset} {distance lux : Word} {overRange sensorOk : Bool} {a : Nat}
    (ha : distLen o ≤ a) : Memory.read (distanceArray o distance lux overRange sensorOk) a = 0 := by
  obtain ⟨hlo, hhi⟩ := offsetOf_le o
  have hfirst : Memory.wf (Memory.writeLE [] 0 2 (distance.setWidth 64)) = true := Memory.wf_writeLE rfl (by decide)
  have hoff : offsetOf o + 4 ≤ a := ha
  rw [distanceArray, Memory.read_writeLE_of_ge hfirst hhi hoff, Memory.read_writeLE_of_ge rfl (by decide) (by omega),
    Memory.read_nil]

/-- DIST_LEN fits `out.len` for either offset. -/
theorem distLen_toNat (o : DistWordOffset) : (BitVec.ofNat 4 (distLen o)).toNat = distLen o := by
  cases o <;> rfl

/-- Settles O32: each operation's outputs are zero outside the ports it names, by the equation of its meaning; only the
builders list payload bytes, all below the length they declare. -/
theorem unnamedOutputsAreZero : Obligations.UnnamedOutputsAreZero := by
  intro i s
  cases i with
  | encode => exact ⟨_, exec_encode .., fun _ _ => rfl, rfl⟩
  | decode => exact ⟨_, exec_decode .., fun _ _ => rfl, rfl⟩
  | identify => exact ⟨_, exec_identify .., fun _ _ => rfl, rfl⟩
  | buildStatus => exact ⟨_, exec_buildStatus .., fun _ => read_statusArray_of_ge, rfl⟩
  | parseStatus => exact ⟨_, exec_parseStatus .., fun _ _ => rfl, rfl⟩
  | buildControl => exact ⟨_, exec_buildControl .., fun _ => read_controlArray_of_ge, rfl⟩
  | parseControl => exact ⟨_, exec_parseControl .., fun _ _ => rfl, rfl⟩
  | buildDistance =>
    have hlen := Nat.le_of_eq (distLen_toNat s.cfg.distWordOffset).symm
    exact ⟨_, exec_buildDistance .., fun _ ha => read_distanceArray_of_ge (Nat.le_trans hlen ha), rfl⟩
  | parseDistance => exact ⟨_, exec_parseDistance .., fun _ _ => rfl, rfl⟩

end Sys2Proof.Machine
end

section
/-! PROOFS of 10_state.md: what a step reads and writes. Its outputs come from the decoded instruction, the parameter and,
for IDENTIFY alone, the table (R23, R28); neither `in.len` (R27) nor, for a builder, the payload (R29) reaches them. -/

namespace Sys2Proof

/-- The instruction with another size hint; only the parsers carry one (30_encoding.md R78). -/
def Instr.withHint (l : BitVec 4) : Instr → Instr
  | .parseStatus p _ => .parseStatus p l
  | .parseControl p _ => .parseControl p l
  | .parseDistance p _ => .parseDistance p l
  | i => i

/-- Presenting another `in.len` changes the decoded instruction in its size hint only. -/
theorem decode_setLen (t : Inputs) (l : BitVec 4) :
    decode { t with len := l } = (decode t).map (Instr.withHint l) := by
  simp only [decode]
  split <;> rfl

/-- The decoder reads the payload for the parsers' `op` values only (30_encoding.md R62). -/
theorem decode_setPayload {t : Inputs} (h : t.op ∈ [0x0, 0x1, 0x2, 0x3, 0x5, (0x7 : BitVec 4)]) (q : Memory) :
    decode { t with p := q } = decode t := by
  obtain ⟨op⟩ := t
  simp only [List.mem_cons, List.not_mem_nil, or_false] at h
  obtain rfl | rfl | rfl | rfl | rfl | rfl := h <;> rfl

end Sys2Proof

namespace Sys2Proof.Machine

theorem step_of_decode {s : State} {i : Instr} (h : decode s.inp = .ok i) : step s = exec i s := by
  rw [step, h]

theorem step_of_decode_error {s : State} {r : Reject} (h : decode s.inp = .error r) : step s = .refused (refusalOf r) := by
  rw [step, h]

/-- A step that completes ran an instruction. -/
theorem exec_of_step_next {s t : State} (h : step s = .next t) : ∃ i, exec i s = .next t := by
  obtain ⟨i, -, hi⟩ | ⟨-, hrefused⟩ := step_cases s
  · exact ⟨i, hi.symm.trans h⟩
  · rw [hrefused] at h
    cases h

/-- No meaning reads the size hint. -/
theorem exec_withHint (i : Instr) (l : BitVec 4) (s : State) : exec (i.withHint l) s = exec i s := by
  cases i with
  | parseStatus => rw [Instr.withHint, exec_parseStatus, exec_parseStatus]
  | parseControl => rw [Instr.withHint, exec_parseControl, exec_parseControl]
  | parseDistance => rw [Instr.withHint, exec_parseDistance, exec_parseDistance]
  | _ => rfl

/-- Of the state, an instruction's outputs read the parameter and, for IDENTIFY alone, the table. -/
theorem outputsOf_exec_congr (i : Instr) {s s' : State} (hcfg : s.cfg = s'.cfg)
    (hkinds : opOf i = 0x2 → s.validKinds = s'.validKinds) : outputsOf (exec i s) = outputsOf (exec i s') := by
  cases i with
  | identify => rw [exec_identify, exec_identify, hkinds rfl]; rfl
  | buildDistance => rw [exec_buildDistance, exec_buildDistance, hcfg]; rfl
  | parseDistance => rw [exec_parseDistance, exec_parseDistance, hcfg]; rfl
  | _ => rfl

/-- Of the unit, a step's outputs read the decoded instruction, the parameter and, for IDENTIFY alone, the table. -/
theorem outputsOf_step_congr {s s' : State} (hdecode : decode s.inp = decode s'.inp) (hcfg : s.cfg = s'.cfg)
    (hkinds : s.inp.op = 0x2 → s.validKinds = s'.validKinds) : outputsOf (step s) = outputsOf (step s') := by
  cases h : decode s.inp with
  | ok i =>
    rw [step_of_decode h, step_of_decode (hdecode.symm.trans h)]
    exact outputsOf_exec_congr i hcfg fun hop => hkinds ((opOf_of_decode h).symm.trans hop)
  | error r => rw [step_of_decode_error h, step_of_decode_error (hdecode.symm.trans h)]

theorem outputsOf_step_setLen (s : State) (l : BitVec 4) :
    outputsOf (step (s.present { s.inp with len := l })) = outputsOf (step s) := by
  have hdecode := decode_setLen s.inp l
  cases h : decode s.inp with
  | ok i =>
    rw [h] at hdecode
    rw [step_of_decode h, step_of_decode hdecode, exec_withHint]
    exact outputsOf_exec_congr i rfl fun _ => rfl
  | error r =>
    rw [h] at hdecode
    rw [step_of_decode_error h, step_of_decode_error hdecode]

theorem identifyError_ne_invalidBuffer (validKinds : List (BitVec 5)) (h : Header) :
    errorCode (identifyError validKinds h) ≠ 7 := by
  rw [identifyError]
  split
  · rw [deviceIdError_eq]
    repeat' split
    all_goals decide
  · decide

theorem statusError_ne_invalidBuffer (uptime voltage adc : Word) : errorCode (statusError uptime voltage adc) ≠ 7 := by
  rw [statusError_eq]
  split <;> decide

theorem distanceError_ne_invalidBuffer (distance lux : Word) : errorCode (distanceError distance lux) ≠ 7 := by
  rw [distanceError_eq]
  split <;> decide

/-- No instruction answers InvalidBuffer: three operations compute a code, and the others drive NoError. -/
theorem exec_err_ne_invalidBuffer (i : Instr) (s : State) : ∃ t, exec i s = .next t ∧ t.out.err ≠ 7 := by
  have hnoError : errorCode .noError ≠ 7 := by decide
  cases i with
  | encode => exact ⟨_, exec_encode .., hnoError⟩
  | decode => exact ⟨_, exec_decode .., hnoError⟩
  | identify => exact ⟨_, exec_identify .., identifyError_ne_invalidBuffer _ _⟩
  | buildStatus => exact ⟨_, exec_buildStatus .., statusError_ne_invalidBuffer _ _ _⟩
  | parseStatus => exact ⟨_, exec_parseStatus .., hnoError⟩
  | buildControl => exact ⟨_, exec_buildControl .., hnoError⟩
  | parseControl => exact ⟨_, exec_parseControl .., hnoError⟩
  | buildDistance => exact ⟨_, exec_buildDistance .., distanceError_ne_invalidBuffer _ _⟩
  | parseDistance => exact ⟨_, exec_parseDistance .., hnoError⟩

/-- The instructions that are no builder list no payload byte. -/
theorem exec_drives_no_payload {i : Instr} (h : opOf i ∈ [0x0, 0x1, 0x2, 0x4, 0x6, (0x8 : BitVec 4)]) (s : State) :
    ∃ t, exec i s = .next t ∧ t.out.p = [] := by
  cases i with
  | encode => exact ⟨_, exec_encode .., rfl⟩
  | decode => exact ⟨_, exec_decode .., rfl⟩
  | identify => exact ⟨_, exec_identify .., rfl⟩
  | parseStatus => exact ⟨_, exec_parseStatus .., rfl⟩
  | parseControl => exact ⟨_, exec_parseControl .., rfl⟩
  | parseDistance => exact ⟨_, exec_parseDistance .., rfl⟩
  | buildStatus | buildControl | buildDistance => simp [opOf] at h

/-- Settles O35: another `in.len` decodes to the same instruction with another size hint, which no meaning reads; and no
check answers InvalidBuffer. -/
theorem inLenNeverRead : Obligations.InLenNeverRead := by
  intro s l
  refine ⟨outputsOf_step_setLen s l, fun t ht => ?_⟩
  obtain ⟨i, hi⟩ := exec_of_step_next ht
  obtain ⟨t', ht', herr⟩ := exec_err_ne_invalidBuffer i s
  cases hi.symm.trans ht'
  exact herr

/-- Settles O36: equal inputs decode to the same instruction, and no meaning reads the output ports. -/
theorem outputsDependOnlyOnInputs : Obligations.OutputsDependOnlyOnInputs :=
  fun _ _ hkinds hcfg hinp => outputsOf_step_congr (congrArg decode hinp) hcfg fun _ => hkinds

/-- Settles O37: the decoder hands the payload to the parsers only, and only the builders list a payload byte. -/
theorem payloadPortsAreSeparate : Obligations.PayloadPortsAreSeparate := by
  intro s
  refine ⟨fun q hop => outputsOf_step_congr (decode_setPayload hop q) rfl fun _ => rfl, fun hop => ?_⟩
  have hlt : ∀ op ∈ [0x0, 0x1, 0x2, 0x4, 0x6, (0x8 : BitVec 4)], op.toNat < 9 := by decide
  obtain ⟨i, hi⟩ := (decode_ok_iff s.inp).2 (hlt _ hop)
  rw [← opOf_of_decode hi] at hop
  obtain ⟨t, ht, hp⟩ := exec_drives_no_payload hop s
  exact ⟨t, (step_of_decode hi).trans ht, fun a => by rw [hp, Memory.read_nil]⟩

/-- Settles O40: reset gives the table its content, a completed step changes the output ports only, and no `op` but
IDENTIFY's reads the table. -/
theorem constantTableIsReadOnly : Obligations.ConstantTableIsReadOnly := by
  refine ⟨rfl, fun s t ht => ?_, fun s kinds hop => outputsOf_step_congr rfl rfl fun h => absurd h hop⟩
  obtain ⟨i, hi⟩ := exec_of_step_next ht
  rw [exec_next hi, State.drive_validKinds]

end Sys2Proof.Machine
end

section
/-! PROOFS of 20_memory.md: the payload accesses are little-endian (R41). MemRead's value is its first byte plus 2^8 times
the value from the next index on; MemWrite's bytes are the 8-bit slices of the value. -/

namespace Sys2Proof.Machine

/-- A common factor leaves a sum. The model's files import core Lean only, without Mathlib's law of this form. -/
theorem sum_map_mul (l : List Nat) (f : Nat → Nat) (c : Nat) : (l.map fun j => f j * c).sum = (l.map f).sum * c := by
  induction l with
  | nil => exact (Nat.zero_mul c).symm
  | cons j l ih => rw [List.map_cons, List.sum_cons, ih, List.map_cons, List.sum_cons, Nat.add_mul]

/-- MemRead's value as the sum of its bytes, each shifted to its place; `readLE_two_toNat` and `readLE_four_toNat` write
this out for two widths. -/
theorem readLE_toNat (m : Memory) (i n : Nat) (hn : n ≤ 8) :
    (Memory.readLE m i n).toNat = ((List.range n).map fun j => (Memory.read m (i + j)).toNat <<< (8 * j)).sum := by
  induction n generalizing i with
  | zero => rfl
  | succ n ih =>
    have hshift : ∀ j, (Memory.read m (i + (j + 1))).toNat <<< (8 * (j + 1)) =
        (Memory.read m (i + 1 + j)).toNat <<< (8 * j) * 2 ^ 8 := by
      intro j
      rw [Nat.mul_succ, Nat.shiftLeft_add, Nat.shiftLeft_eq _ 8, Nat.add_comm j 1, Nat.add_assoc]
    rw [readLE_succ_toNat m i n hn, ih (i + 1) (Nat.le_of_succ_le hn), ← sum_map_mul,
      List.range_succ_eq_map, List.map_cons, List.map_map, List.sum_cons]
    simp only [Function.comp_def, Nat.succ_eq_add_one, hshift, Nat.add_zero, Nat.mul_zero, Nat.shiftLeft_zero]

/-- A multi-byte write puts bits 8j+7..8j of the value at its byte `j`. -/
theorem read_writeLE_toNat {m : Memory} {i n : Nat} {v : Wide} (h : Memory.wf m = true) (hn : i + n ≤ 8) {j : Nat}
    (hj : j < n) : (Memory.read (Memory.writeLE m i n v) (i + j)).toNat = v.toNat / 2 ^ (8 * j) % 2 ^ 8 := by
  rw [Memory.read_writeLE h hn, if_pos ⟨Nat.le_add_right i j, Nat.add_lt_add_left hj i⟩, Nat.add_sub_cancel_left,
    byteOf_toNat]

/-- Settles O39: an access inside the payload meets no fault, so MemRead's value is the sum of its shifted bytes, and
MemWrite keeps the canonical form and replaces its own bytes only. -/
theorem payloadAccessIsLittleEndian : Obligations.PayloadAccessIsLittleEndian := by
  refine ⟨fun m i n hn => ⟨_, memRead_eq m hn, readLE_toNat m i n (by omega)⟩, fun m i n v hm hn => ?_⟩
  have hframe : ∀ a, a < i ∨ i + n ≤ a → Memory.read (Memory.writeLE m i n v) a = Memory.read m a := by
    intro a ha
    rw [Memory.read_writeLE hm hn, if_neg (by omega)]
  exact ⟨_, memWrite_eq m v hn, Memory.wf_writeLE hm hn, fun j => read_writeLE_toNat hm hn, hframe⟩

end Sys2Proof.Machine
end

section
/-! PROOFS of 30_encoding.md: the operation select (R60), the header words and their reserved bits (R64, R68), the error
codes (R66) and the declared lengths (R76). -/

namespace Sys2Proof.Machine

/-! ## The operation select -/

/-- Settles O1: the decoder selects by `op` alone, and a reserved `op` is rejected. -/
theorem opSelectsOperation : Obligations.OpSelectsOperation := by
  intro t
  refine ⟨?_, ?_, ?_, ?_, ?_, ?_, ?_, ?_, ?_, decode_reserved⟩
  all_goals
    intro hop
    rw [decode, hop]
    rfl

/-! ## Header words -/

/-- ENC's three fields fill bits 10:0. -/
theorem enc_lt (s d k : Word) : (enc s d k).toNat < 2 ^ 11 := by
  rw [enc_toNat]
  omega

theorem headerWord_lt (source destination : DeviceId) (kind : MessageKind) :
    (headerWord source destination kind).toNat < 2 ^ 11 := enc_lt _ _ _

/-- A produced word is 0 or made by ENC, so its bits 31:11 are 0. -/
theorem exec_word_lt (i : Instr) (s : State) : ∃ t, exec i s = .next t ∧ t.out.word.toNat < 2 ^ 11 := by
  have hzero : (0 : Word).toNat < 2 ^ 11 := by decide
  cases i with
  | encode => exact ⟨_, exec_encode .., enc_lt _ _ _⟩
  | decode => exact ⟨_, exec_decode .., hzero⟩
  | identify => exact ⟨_, exec_identify .., hzero⟩
  | buildStatus => exact ⟨_, exec_buildStatus .., headerWord_lt _ _ _⟩
  | parseStatus => exact ⟨_, exec_parseStatus .., hzero⟩
  | buildControl => exact ⟨_, exec_buildControl .., headerWord_lt _ _ _⟩
  | parseControl => exact ⟨_, exec_parseControl .., hzero⟩
  | buildDistance => exact ⟨_, exec_buildDistance .., headerWord_lt _ _ _⟩
  | parseDistance => exact ⟨_, exec_parseDistance .., hzero⟩

/-- Settles O11: ENC alone makes the words a unit produces, and DECODE and IDENTIFY read a word through DEC, which skips
its bits 31:11. -/
theorem headerReservedBits : Obligations.HeaderReservedBits := by
  refine ⟨fun i s t ht => ?_, fun w w' s hw => ?_⟩
  · obtain ⟨t', ht', hlt⟩ := exec_word_lt i s
    cases ht.symm.trans ht'
    exact hlt
  · have hdec := dec_congr hw
    exact ⟨by rw [exec_decode, exec_decode, hdec], by rw [exec_identify, exec_identify, hdec]⟩

theorem headerWord_status : headerWord .host .sensorNode .status = 0x00000001 := by decide

theorem headerWord_control : headerWord .host .sensorNode .control = 0x00000041 := by decide

theorem headerWord_distance : headerWord .sensorNode .host .distance = 0x00000088 := by decide

/-- DEC takes apart what ENC packed, each operand truncated to its field. -/
theorem dec_enc (s d k : Word) : dec (enc s d k) = ⟨s.setWidth 3, d.setWidth 3, k.setWidth 5⟩ := by
  have hsrc : (dec (enc s d k)).src = s.setWidth 3 := BitVec.eq_of_toNat_eq (by
    rw [dec_src_toNat, enc_toNat, BitVec.toNat_setWidth]; omega)
  have hdst : (dec (enc s d k)).dst = d.setWidth 3 := BitVec.eq_of_toNat_eq (by
    rw [dec_dst_toNat, enc_toNat, BitVec.toNat_setWidth]; omega)
  have hkind : (dec (enc s d k)).kind = k.setWidth 5 := BitVec.eq_of_toNat_eq (by
    rw [dec_kind_toNat, enc_toNat, BitVec.toNat_setWidth]; omega)
  rw [← hsrc, ← hdst, ← hkind]

/-- DECODE of a builder's header word drives the two ids and the kind it was made from. -/
theorem exec_decode_headerWord (source destination : DeviceId) (kind : MessageKind) (s : State) :
    exec (.decode (headerWord source destination kind)) s = .next (s.drive { Outputs.zero with
      src := ((deviceCode source).setWidth 32).setWidth 3
      dst := ((deviceCode destination).setWidth 32).setWidth 3
      kind := (((kindCode kind).setWidth 32).setWidth 5).setWidth 8 }) := by
  rw [exec_decode, headerWord, dec_enc]
  rfl

/-- Settles O30: no operand reaches a builder's header word, and DECODE gives back the ids and the kind it was made
from. -/
theorem builderHeaderWords : Obligations.BuilderHeaderWords :=
  ⟨fun _ _ _ _ _ _ _ => ⟨_, exec_buildStatus .., headerWord_status, exec_decode_headerWord ..⟩,
    fun _ _ _ _ => ⟨_, exec_buildControl .., headerWord_control, exec_decode_headerWord ..⟩,
    fun _ _ _ _ _ _ => ⟨_, exec_buildDistance .., headerWord_distance, exec_decode_headerWord ..⟩⟩

/-! ## Declared lengths -/

/-- DIST_LEN for either offset (R71). -/
theorem distLen_code (o : DistWordOffset) : BitVec.ofNat 4 (distLen o) = if o = .four then 8 else 6 := by
  cases o <;> rfl

theorem distLen_le (o : DistWordOffset) : (BitVec.ofNat 4 (distLen o)).toNat ≤ 8 := by
  rw [distLen_toNat]
  exact (offsetOf_le o).2

/-- Settles O31: the builders drive the length of their layout, and every other operation leaves `out.len` 0. -/
theorem declaredLengths : Obligations.DeclaredLengths := by
  intro i s
  have hzero : (0 : BitVec 4).toNat ≤ 8 := by decide
  cases i with
  | encode => exact ⟨_, exec_encode .., hzero, rfl⟩
  | decode => exact ⟨_, exec_decode .., hzero, rfl⟩
  | identify => exact ⟨_, exec_identify .., hzero, rfl⟩
  | buildStatus => exact ⟨_, exec_buildStatus .., Nat.le_refl 8, rfl⟩
  | parseStatus => exact ⟨_, exec_parseStatus .., hzero, rfl⟩
  | buildControl => exact ⟨_, exec_buildControl .., (by decide : (1 : BitVec 4).toNat ≤ 8), rfl⟩
  | parseControl => exact ⟨_, exec_parseControl .., hzero, rfl⟩
  | buildDistance => exact ⟨_, exec_buildDistance .., distLen_le _, distLen_code _⟩
  | parseDistance => exact ⟨_, exec_parseDistance .., hzero, rfl⟩

/-! ## Error codes -/

/-- The code an instruction reports on a unit whose table is the hardwired one: three operations run checks, and the
others report NoError. -/
def reportedCode : Instr → BitVec 3
  | .identify w => errorCode (identifyError Config.validKinds (dec w))
  | .buildStatus uptime _ _ voltage adc => errorCode (statusError uptime voltage adc)
  | .buildDistance distance lux _ _ => errorCode (distanceError distance lux)
  | _ => errorCode .noError

theorem exec_err (i : Instr) {s : State} (hs : s.TableHardwired) :
    ∃ t, exec i s = .next t ∧ t.out.err = reportedCode i := by
  cases i with
  | encode => exact ⟨_, exec_encode .., rfl⟩
  | decode => exact ⟨_, exec_decode .., rfl⟩
  | identify w => exact ⟨_, exec_identify .., congrArg (fun kinds => errorCode (identifyError kinds (dec w))) hs⟩
  | buildStatus => exact ⟨_, exec_buildStatus .., rfl⟩
  | parseStatus => exact ⟨_, exec_parseStatus .., rfl⟩
  | buildControl => exact ⟨_, exec_buildControl .., rfl⟩
  | parseControl => exact ⟨_, exec_parseControl .., rfl⟩
  | buildDistance => exact ⟨_, exec_buildDistance .., rfl⟩
  | parseDistance => exact ⟨_, exec_parseDistance .., rfl⟩

/-- IDENTIFY's code from the word's fields: a bad kind hides the id checks, of which the last that fires wins (R120). -/
theorem reportedCode_identify (w : Word) : reportedCode (.identify w) =
    if 3 ≤ w.toNat / 64 % 32 then 1
    else if w.toNat % 8 = w.toNat / 8 % 8 then 3
    else if 1 < w.toNat / 8 % 8 then 2
    else if 1 < w.toNat % 8 then 3
    else 0 := by
  simp only [reportedCode, identifyError, mem_validKinds, dec_kind_toNat]
  by_cases hkind : 3 ≤ w.toNat / 64 % 32
  · rw [if_neg (by omega), if_pos hkind]
    rfl
  · rw [if_pos (by omega), if_neg hkind, deviceIdError_eq, dec_src_toNat, dec_dst_toNat]

theorem reportedCode_identify_eq_one_iff (w : Word) : reportedCode (.identify w) = 1 ↔ 3 ≤ w.toNat / 64 % 32 := by
  rw [reportedCode_identify]
  repeat' split
  all_goals simp [*]

theorem reportedCode_identify_eq_two_iff (w : Word) : reportedCode (.identify w) = 2 ↔
    w.toNat / 64 % 32 ≤ 2 ∧ 1 < w.toNat / 8 % 8 ∧ w.toNat % 8 ≠ w.toNat / 8 % 8 := by
  rw [reportedCode_identify]
  repeat' split
  all_goals simp
  all_goals omega

theorem reportedCode_identify_eq_three_iff (w : Word) : reportedCode (.identify w) = 3 ↔ w.toNat / 64 % 32 ≤ 2 ∧
    ((1 < w.toNat % 8 ∧ w.toNat / 8 % 8 ≤ 1) ∨ w.toNat % 8 = w.toNat / 8 % 8) := by
  rw [reportedCode_identify]
  repeat' split
  all_goals simp
  all_goals omega

theorem reportedCode_buildStatus (u : Word) (lb : Bool) (c v a : Word) : reportedCode (.buildStatus u lb c v a) =
    if u.toNat ≤ 16777215 ∧ v.toNat ≤ 4000 ∧ a.toNat ≤ 16000 then 0 else 4 := statusError_eq u v a

theorem reportedCode_buildDistance (d l : Word) (overRange sensorOk : Bool) :
    reportedCode (.buildDistance d l overRange sensorOk) =
      if d.toNat ≤ 300 ∧ l.toNat ≤ 100000 then 0 else 5 := distanceError_eq d l

/-- Which operation an error code names: each code from 1 to 5 belongs to one operation, and 6 and 7 to none. -/
theorem reportedCode_cases (i : Instr) :
    reportedCode i = 0 ∨
    ((∃ w, i = .identify w) ∧ reportedCode i ∈ [1, 2, (3 : BitVec 3)]) ∨
    ((∃ u lb c v a, i = .buildStatus u lb c v a) ∧ reportedCode i = 4) ∨
    ((∃ d l overRange sensorOk, i = .buildDistance d l overRange sensorOk) ∧ reportedCode i = 5) := by
  cases i with
  | identify w =>
    rw [reportedCode_identify]
    repeat' split
    all_goals simp
  | buildStatus => rw [reportedCode_buildStatus]; split <;> simp
  | buildDistance => rw [reportedCode_buildDistance]; split <;> simp
  | _ => exact .inl rfl

theorem reportedCode_ne_six_seven (i : Instr) : reportedCode i ≠ 6 ∧ reportedCode i ≠ 7 := by
  have hidentify : ∀ e ∈ [1, 2, (3 : BitVec 3)], e ≠ 6 ∧ e ≠ 7 := by decide
  obtain h | ⟨-, h⟩ | ⟨-, h⟩ | ⟨-, h⟩ := reportedCode_cases i
  · simp [h]
  · exact hidentify _ h
  · simp [h]
  · simp [h]

/-- The codes 1 to 3 are IDENTIFY's alone. -/
theorem reportedCode_iff_identify (i : Instr) {e : BitVec 3} (he : e ∈ [1, 2, (3 : BitVec 3)]) {P : Word → Prop}
    (hP : ∀ w, reportedCode (.identify w) = e ↔ P w) : reportedCode i = e ↔ ∃ w, i = .identify w ∧ P w := by
  constructor
  · intro h
    obtain h' | ⟨⟨w, rfl⟩, -⟩ | ⟨-, h'⟩ | ⟨-, h'⟩ := reportedCode_cases i
    · simp [← h, h'] at he
    · exact ⟨w, rfl, (hP w).1 h⟩
    · simp [← h, h'] at he
    · simp [← h, h'] at he
  · rintro ⟨w, rfl, hw⟩
    exact (hP w).2 hw

theorem reportedCode_eq_four_iff (i : Instr) : reportedCode i = 4 ↔ ∃ u lb c v a, i = .buildStatus u lb c v a ∧
    (16777215 < u.toNat ∨ 4000 < v.toNat ∨ 16000 < a.toNat) := by
  constructor
  · intro h
    obtain h' | ⟨-, h'⟩ | ⟨⟨u, lb, c, v, a, rfl⟩, -⟩ | ⟨-, h'⟩ := reportedCode_cases i
    · simp [h] at h'
    · simp [h] at h'
    · refine ⟨u, lb, c, v, a, rfl, ?_⟩
      rw [reportedCode_buildStatus] at h
      split at h
      · simp at h
      · omega
    · simp [h] at h'
  · rintro ⟨u, lb, c, v, a, rfl, hbad⟩
    rw [reportedCode_buildStatus, if_neg (by omega)]

theorem reportedCode_eq_five_iff (i : Instr) : reportedCode i = 5 ↔
    ∃ d l overRange sensorOk, i = .buildDistance d l overRange sensorOk ∧ (300 < d.toNat ∨ 100000 < l.toNat) := by
  constructor
  · intro h
    obtain h' | ⟨-, h'⟩ | ⟨-, h'⟩ | ⟨⟨d, l, overRange, sensorOk, rfl⟩, -⟩ := reportedCode_cases i
    · simp [h] at h'
    · simp [h] at h'
    · simp [h] at h'
    · refine ⟨d, l, overRange, sensorOk, rfl, ?_⟩
      rw [reportedCode_buildDistance] at h
      split at h
      · simp at h
      · omega
  · rintro ⟨d, l, overRange, sensorOk, rfl, hbad⟩
    rw [reportedCode_buildDistance, if_neg (by omega)]

/-- Settles O33: every instruction reports `reportedCode`, whose values each belong to one operation and one failing
check. -/
theorem errorCodeCauses : Obligations.ErrorCodeCauses := by
  intro i s hs
  obtain ⟨t, ht, herr⟩ := exec_err i hs
  refine ⟨t, ht, ?_⟩
  rw [herr]
  exact ⟨reportedCode_iff_identify i (by decide) reportedCode_identify_eq_one_iff,
    reportedCode_iff_identify i (by decide) reportedCode_identify_eq_two_iff,
    reportedCode_iff_identify i (by decide) reportedCode_identify_eq_three_iff,
    reportedCode_eq_four_iff i, reportedCode_eq_five_iff i, reportedCode_ne_six_seven i⟩

end Sys2Proof.Machine
end

section
/-! PROOFS of 40_addressing_codec.md: ENCODE is ENC and DECODE is DEC, written as arithmetic on the operands (R100, R101);
on fields that fit, DEC undoes ENC (R102), and ENC of DEC keeps bits 10:0 of the word (R103). -/

namespace Sys2Proof.Machine

/-! ## The two operations as arithmetic -/

theorem enc_eq_ofNat (s d k : Word) :
    enc s d k = BitVec.ofNat 32 (s.toNat % 8 + d.toNat % 8 * 8 + k.toNat % 32 * 64) := by
  rw [← enc_toNat, BitVec.ofNat_toNat, BitVec.setWidth_eq]

theorem dec_src_eq_ofNat (w : Word) : (dec w).src = BitVec.ofNat 3 (w.toNat % 8) := by
  rw [← dec_src_toNat, BitVec.ofNat_toNat, BitVec.setWidth_eq]

theorem dec_dst_eq_ofNat (w : Word) : (dec w).dst = BitVec.ofNat 3 (w.toNat / 8 % 8) := by
  rw [← dec_dst_toNat, BitVec.ofNat_toNat, BitVec.setWidth_eq]

theorem dec_kind_setWidth_eq_ofNat (w : Word) : (dec w).kind.setWidth 8 = BitVec.ofNat 8 (w.toNat / 64 % 32) := by
  rw [← dec_kind_toNat, BitVec.ofNat_toNat]

/-- Settles O7: `op` 0 selects ENCODE, whose word is ENC of the operands. -/
theorem encodePacksHeader : Obligations.EncodePacksHeader := by
  refine ⟨fun t => ?_, fun source destination kind s => ?_⟩
  · obtain ⟨hencode, -⟩ := opSelectsOperation t
    exact hencode
  · rw [exec_encode, enc_eq_ofNat]
    rfl

/-- Settles O8: `op` 1 selects DECODE, whose fields are DEC of the word. -/
theorem decodeUnpacksHeader : Obligations.DecodeUnpacksHeader := by
  refine ⟨fun t => ?_, fun w s => ?_⟩
  · obtain ⟨-, hdecode, -⟩ := opSelectsOperation t
    exact hdecode
  · rw [exec_decode, dec_src_eq_ofNat, dec_dst_eq_ofNat, dec_kind_setWidth_eq_ofNat]
    rfl

/-! ## The round trips -/

/-- A kind that fits its 5-bit field is reported as it was given. -/
theorem kind_setWidth_of_lt {k : Word} (hk : k.toNat < 32) : (k.setWidth 5).setWidth 8 = BitVec.ofNat 8 k.toNat := by
  apply BitVec.eq_of_toNat_eq
  rw [BitVec.toNat_setWidth, BitVec.toNat_setWidth, BitVec.toNat_ofNat]
  omega

/-- ENC of the fields DEC answers, the kind through its 8-bit port, clears bits 31:11 of the word. -/
theorem enc_dec (w : Word) :
    enc ((dec w).src.setWidth 32) ((dec w).dst.setWidth 32) (((dec w).kind.setWidth 8).setWidth 32) =
      BitVec.ofNat 32 (w.toNat % 2 ^ 11) := by
  rw [enc_eq_ofNat]
  congr 1
  simp only [BitVec.toNat_setWidth, dec_src_toNat, dec_dst_toNat, dec_kind_toNat]
  omega

/-- Settles O9: DEC takes apart what ENC packed, and a kind that fits its field is not truncated. -/
theorem encodeThenDecode : Obligations.EncodeThenDecode := by
  intro source destination kind s s' _ _ hkind
  refine ⟨_, exec_encode .., ?_⟩
  rw [exec_decode, State.drive_out, dec_enc, BitVec.ofNat_toNat, BitVec.ofNat_toNat, ← kind_setWidth_of_lt hkind]
  rfl

/-- Settles O10: ENC and DEC meet in `enc_dec`, the fields read from DECODE's output ports. -/
theorem decodeThenEncode : Obligations.DecodeThenEncode := by
  intro w s s'
  refine ⟨_, exec_decode .., ?_⟩
  rw [exec_encode, State.drive_out, enc_dec]
  rfl

end Sys2Proof.Machine
end

section
/-! PROOFS of 41_registry_dispatch.md: on the hardwired table IDENTIFY reports the fields, the kind or 254, and
`reportedCode` (R120). Its outcome table (R121), the words that pass (R122) and its blindness to direction (R124) are
read off from which word gets which code. -/

namespace Sys2Proof.Machine

/-! ## What IDENTIFY drives -/

/-- The reported kind is the decoded one, or 254 outside the table (R120). -/
theorem reportedKind_dec (w : Word) : reportedKind Config.validKinds (dec w).kind =
    if w.toNat / 64 % 32 ≤ 2 then BitVec.ofNat 8 (w.toNat / 64 % 32) else 254 := by
  simp only [reportedKind, mem_validKinds, dec_kind_toNat, dec_kind_setWidth_eq_ofNat]
  rfl

theorem exec_identify_of_hardwired (w : Word) {s : State} (hs : s.TableHardwired) :
    exec (.identify w) s = .next (s.drive { Outputs.zero with
      src := BitVec.ofNat 3 (w.toNat % 8)
      dst := BitVec.ofNat 3 (w.toNat / 8 % 8)
      kind := if w.toNat / 64 % 32 ≤ 2 then BitVec.ofNat 8 (w.toNat / 64 % 32) else 254
      err := reportedCode (.identify w) }) := by
  rw [exec_identify, hs, dec_src_eq_ofNat, dec_dst_eq_ofNat, reportedKind_dec]
  rfl

/-- Settles O12: `op` 2 selects IDENTIFY, and the last check that fires is the first row of `reportedCode_identify`
whose condition holds. -/
theorem identifyReportsLastCheck : Obligations.IdentifyReportsLastCheck := by
  refine ⟨fun t => ?_, fun w s hs => ?_⟩
  · obtain ⟨-, -, hidentify, -⟩ := opSelectsOperation t
    exact hidentify
  · rw [exec_identify_of_hardwired w hs, reportedCode_identify]
    rfl

/-! ## Which word gets which code -/

theorem reportedCode_identify_eq_zero_iff (w : Word) : reportedCode (.identify w) = 0 ↔
    w.toNat / 64 % 32 ≤ 2 ∧ w.toNat % 8 ≤ 1 ∧ w.toNat / 8 % 8 ≤ 1 ∧ w.toNat % 8 ≠ w.toNat / 8 % 8 := by
  rw [reportedCode_identify]
  repeat' split
  all_goals simp
  all_goals omega

/-- Settles O13: each row's condition gives the condition of its code. -/
theorem identifyOutcomeTable : Obligations.IdentifyOutcomeTable := by
  intro w s hs
  refine ⟨_, exec_identify_of_hardwired w hs, fun hkind => ⟨?_, ?_, ?_, ?_, ?_, ?_⟩, fun hkind => ⟨?_, ?_⟩⟩
  · exact fun hsrc hdst hne => (reportedCode_identify_eq_zero_iff w).2 ⟨hkind, hsrc, hdst, hne⟩
  · exact fun _ _ heq => (reportedCode_identify_eq_three_iff w).2 ⟨hkind, .inr heq⟩
  · exact fun hsrc hdst => (reportedCode_identify_eq_three_iff w).2 ⟨hkind, .inl ⟨hsrc, hdst⟩⟩
  · exact fun hsrc hdst => (reportedCode_identify_eq_two_iff w).2 ⟨hkind, hdst, by omega⟩
  · exact fun _ hdst hne => (reportedCode_identify_eq_two_iff w).2 ⟨hkind, hdst, hne⟩
  · exact fun _ _ heq => (reportedCode_identify_eq_three_iff w).2 ⟨hkind, .inr heq⟩
  · exact (reportedCode_identify_eq_one_iff w).2 hkind
  · exact if_neg (by omega)

/-! ## The words that pass -/

/-- A word with bits 31:11 clear is its three fields, so two ids for each of three kinds leave six words (R122). -/
theorem reportedCode_identify_eq_zero_iff_mem {w : Word} (hw : w.toNat < 2 ^ 11) :
    reportedCode (.identify w) = 0 ↔ w ∈ [0x008, 0x001, 0x048, 0x041, 0x088, (0x081 : Word)] := by
  rw [reportedCode_identify_eq_zero_iff]
  simp only [List.mem_cons, List.not_mem_nil, or_false, ← BitVec.toNat_inj, BitVec.reduceToNat]
  omega

/-- Settles O14: both clauses say which words get the code 0. -/
theorem identifyPassesExactlyValidWords : Obligations.IdentifyPassesExactlyValidWords := fun w _ hs =>
  ⟨_, exec_identify_of_hardwired w hs, reportedCode_identify_eq_zero_iff w, reportedCode_identify_eq_zero_iff_mem⟩

/-- Settles O15: a passing word's ids need only differ, whichever way its kind travels; BUILD_DISTANCE's header word is
fixed. -/
theorem identifyChecksNoDirection : Obligations.IdentifyChecksNoDirection := by
  have hvalid : ∀ v ∈ [0x081, 0x008, (0x048 : Word)],
      v.toNat / 64 % 32 ≤ 2 ∧ v.toNat % 8 ≤ 1 ∧ v.toNat / 8 % 8 ≤ 1 ∧ v.toNat % 8 ≠ v.toNat / 8 % 8 := by simp
  exact ⟨fun w _ hs hw => ⟨_, exec_identify_of_hardwired w hs, (reportedCode_identify_eq_zero_iff w).2 (hvalid w hw)⟩,
    fun _ _ _ _ _ => ⟨_, exec_buildDistance .., headerWord_distance⟩⟩

end Sys2Proof.Machine
end

section
/-! PROOFS of 42_status.md: BUILD_STATUS drives the eight bytes of the layout table, each the low bits of its operand
(R140, R141, R144), and PARSE_STATUS reads each field off its own bytes (R150). The two meet byte by byte (R151). -/

namespace Sys2Proof

/-- A multi-byte write leaves every byte before its first one. -/
theorem Memory.read_writeLE_of_lt {m : Memory} {i n a : Nat} {v : Wide} (h : Memory.wf m = true) (hn : i + n ≤ 8)
    (ha : a < i) : Memory.read (Memory.writeLE m i n v) a = Memory.read m a := by
  rw [Memory.read_writeLE h hn, if_neg (by omega)]

/-- A payload in canonical form is made of its eight bytes. -/
theorem eq_payloadOfBytes {m : Memory} {bs : List Byte} (hm : Memory.wf m = true)
    (h : ∀ a, a < 8 → Memory.read m a = bs.getD a 0) : m = payloadOfBytes bs := by
  refine Memory.wf_ext hm (wf_payloadOfBytes bs) fun a => ?_
  rw [read_payloadOfBytes]
  split
  · exact h a ‹_›
  · exact Memory.read_above hm (by omega)

end Sys2Proof

namespace Sys2Proof.Machine

/-! ## The bytes BUILD_STATUS drives -/

/-- The bytes of the Status payload by plain arithmetic on the operands (R69). -/
def statusBytes (uptime : Word) (loopback : Bool) (temperature voltage adc : Word) : List Byte := [
  BitVec.ofNat 8 uptime.toNat, BitVec.ofNat 8 (uptime.toNat / 2 ^ 8), BitVec.ofNat 8 (uptime.toNat / 2 ^ 16),
  BitVec.ofNat 8 (loopback.toNat + temperature.toNat % 2 ^ 7 * 2),
  BitVec.ofNat 8 voltage.toNat, BitVec.ofNat 8 (voltage.toNat / 2 ^ 8),
  BitVec.ofNat 8 adc.toNat, BitVec.ofNat 8 (adc.toNat / 2 ^ 8)]

section
variable (u : Word) (lb : Bool) (c v a : Word)

/-- Bytes 0 to 3 are W0's. -/
theorem read_statusArray_word (j : Nat) (hj : j < 4) : (Memory.read (statusArray u lb c v a) j).toNat =
    (statusWord u lb c).toNat / 2 ^ (8 * j) % 2 ^ 8 := by
  rw [statusArray, Memory.read_writeLE_of_lt (Memory.wf_writeLE (Memory.wf_writeLE rfl (by decide)) (by decide))
      (by decide) (by omega),
    Memory.read_writeLE_of_lt (Memory.wf_writeLE rfl (by decide)) (by decide) hj, ← Nat.zero_add j,
    read_writeLE_toNat rfl (by decide) hj, BitVec.toNat_setWidth_of_le (by decide), Nat.zero_add]

/-- Bytes 4 and 5 are the voltage's. -/
theorem read_statusArray_voltage (j : Nat) (hj : j < 2) : (Memory.read (statusArray u lb c v a) (4 + j)).toNat =
    v.toNat / 2 ^ (8 * j) % 2 ^ 8 := by
  rw [statusArray, Memory.read_writeLE_of_lt (Memory.wf_writeLE (Memory.wf_writeLE rfl (by decide)) (by decide))
      (by decide) (by omega),
    read_writeLE_toNat (Memory.wf_writeLE rfl (by decide)) (by decide) hj, BitVec.toNat_setWidth_of_le (by decide)]

/-- Bytes 6 and 7 are the ADC's. -/
theorem read_statusArray_adc (j : Nat) (hj : j < 2) : (Memory.read (statusArray u lb c v a) (6 + j)).toNat =
    a.toNat / 2 ^ (8 * j) % 2 ^ 8 := by
  rw [statusArray, read_writeLE_toNat (Memory.wf_writeLE (Memory.wf_writeLE rfl (by decide)) (by decide))
    (by decide) hj, BitVec.toNat_setWidth_of_le (by decide)]

/-- The three writes drive the layout table's bytes. -/
theorem statusArray_eq_payloadOfBytes : statusArray u lb c v a = payloadOfBytes (statusBytes u lb c v a) := by
  have hlb := flag_le lb
  have hword := read_statusArray_word u lb c v a
  have hvoltage := read_statusArray_voltage u lb c v a
  have hadc := read_statusArray_adc u lb c v a
  refine eq_payloadOfBytes (wf_statusArray ..) fun i hi => BitVec.eq_of_toNat_eq ?_
  simp only [statusWord_toNat] at hword
  match i with
  | 0 => rw [hword 0 (by decide)]; simp [statusBytes]; omega
  | 1 => rw [hword 1 (by decide)]; simp [statusBytes]; omega
  | 2 => rw [hword 2 (by decide)]; simp [statusBytes]; omega
  | 3 => rw [hword 3 (by decide)]; simp [statusBytes]; omega
  | 4 => rw [hvoltage 0 (by decide)]; simp [statusBytes]
  | 5 => rw [hvoltage 1 (by decide)]; simp [statusBytes]
  | 6 => rw [hadc 0 (by decide)]; simp [statusBytes]
  | 7 => rw [hadc 1 (by decide)]; simp [statusBytes]

theorem exec_buildStatus_bytes (s : State) : exec (.buildStatus u lb c v a) s = .next (s.drive { Outputs.zero with
    word := 0x00000001
    p := payloadOfBytes (statusBytes u lb c v a)
    len := 8
    err := if u.toNat ≤ 16777215 ∧ v.toNat ≤ 4000 ∧ a.toNat ≤ 16000 then 0 else 4 }) := by
  rw [exec_buildStatus, headerWord_status, statusArray_eq_payloadOfBytes, statusError_eq]

end

/-- Only the low bits of the operands reach the payload (R141). -/
theorem statusBytes_congr {u u' c c' v v' a a' : Word} (lb : Bool) (hu : u.toNat % 2 ^ 24 = u'.toNat % 2 ^ 24)
    (hc : c.toNat % 2 ^ 7 = c'.toNat % 2 ^ 7) (hv : v.toNat % 2 ^ 16 = v'.toNat % 2 ^ 16)
    (ha : a.toNat % 2 ^ 16 = a'.toNat % 2 ^ 16) : statusBytes u lb c v a = statusBytes u' lb c' v' a' := by
  simp only [statusBytes, hc, List.cons.injEq, ← BitVec.toNat_inj, BitVec.toNat_ofNat, and_true, true_and]
  omega

/-- Settles O17: `op` 3 selects BUILD_STATUS, whose writes drive the layout table's bytes. -/
theorem buildStatusFrame : Obligations.BuildStatusFrame := by
  refine ⟨fun t => ?_, exec_buildStatus_bytes⟩
  obtain ⟨-, -, -, hbuildStatus, -⟩ := opSelectsOperation t
  exact hbuildStatus

/-- Settles O18: the header word and the length are fixed, and the bytes read the truncated operands only. -/
theorem statusFailOpen : Obligations.StatusFailOpen := fun _ _ lb _ _ _ _ _ _ _ _ hu hc hv ha =>
  ⟨_, _, exec_buildStatus_bytes .., exec_buildStatus_bytes .., rfl,
    congrArg payloadOfBytes (statusBytes_congr lb hu hc hv ha), rfl⟩

/-! ## The fields PARSE_STATUS reads -/

theorem fieldWord_eq_ofNat (lo w : Nat) (v : Wide) (hw : w ≤ 32) :
    fieldWord lo w v = BitVec.ofNat 32 (v.toNat / 2 ^ lo % 2 ^ w) := by
  rw [← fieldWord_toNat lo w v hw, BitVec.ofNat_toNat, BitVec.setWidth_eq]

/-- A 16-bit field is its two bytes. -/
theorem fieldWord_readLE_two (p : Memory) (i : Nat) : fieldWord 0 16 (Memory.readLE p i 2) =
    BitVec.ofNat 32 ((Memory.read p i).toNat + (Memory.read p (i + 1)).toNat * 2 ^ 8) := by
  rw [fieldWord_eq_ofNat _ _ _ (by decide), readLE_two_toNat]
  congr 1
  omega

theorem fieldWord_uptime (p : Memory) : fieldWord 0 24 (Memory.readLE p 0 4) = BitVec.ofNat 32
    ((Memory.read p 0).toNat + (Memory.read p 1).toNat * 2 ^ 8 + (Memory.read p 2).toNat * 2 ^ 16) := by
  rw [fieldWord_eq_ofNat _ _ _ (by decide), readLE_four_toNat]
  simp only [Nat.zero_add]
  congr 1
  omega

/-- W0's bits 31:25 are bits 7:1 of byte 3. -/
theorem fieldWord_temperature (p : Memory) :
    fieldWord 25 7 (Memory.readLE p 0 4) = BitVec.ofNat 32 ((Memory.read p 3).toNat / 2) := by
  rw [fieldWord_eq_ofNat _ _ _ (by decide), readLE_four_toNat]
  simp only [Nat.zero_add]
  congr 1
  omega

theorem exec_parseStatus_bytes (p : Memory) (len : BitVec 4) (s : State) :
    exec (.parseStatus p len) s = .next (s.drive { Outputs.zero with
      f0 := BitVec.ofNat 32 ((Memory.read p 0).toNat + (Memory.read p 1).toNat * 2 ^ 8 + (Memory.read p 2).toNat * 2 ^ 16)
      b0 := (Memory.read p 3).getLsbD 0
      f1 := BitVec.ofNat 32 ((Memory.read p 3).toNat / 2)
      f2 := BitVec.ofNat 32 ((Memory.read p 4).toNat + (Memory.read p 5).toNat * 2 ^ 8)
      f3 := BitVec.ofNat 32 ((Memory.read p 6).toNat + (Memory.read p 7).toNat * 2 ^ 8)
      err := 0 }) := by
  have hloopback : (Memory.readLE p 0 4).getLsbD 24 = (Memory.read p 3).getLsbD 0 :=
    Memory.getLsbD_readLE p 4 0 24 (by decide)
  rw [exec_parseStatus, fieldWord_uptime, hloopback, fieldWord_temperature, fieldWord_readLE_two, fieldWord_readLE_two]
  rfl

/-- Settles O20: `op` 4 selects PARSE_STATUS, whose fields are read off their own bytes. -/
theorem parseStatusFields : Obligations.ParseStatusFields := by
  refine ⟨fun t => ?_, exec_parseStatus_bytes⟩
  obtain ⟨-, -, -, -, hparseStatus, -⟩ := opSelectsOperation t
  exact hparseStatus

/-! ## What the parser makes of a built payload -/

/-- The low two bytes of a number, put together. -/
theorem two_bytes_eq_mod (x : Nat) :
    (BitVec.ofNat 8 x).toNat + (BitVec.ofNat 8 (x / 2 ^ 8)).toNat * 2 ^ 8 = x % 2 ^ 16 := by
  rw [BitVec.toNat_ofNat, BitVec.toNat_ofNat]
  omega

theorem two_bytes_add_third_eq_mod (x : Nat) :
    x % 2 ^ 16 + (BitVec.ofNat 8 (x / 2 ^ 16)).toNat * 2 ^ 16 = x % 2 ^ 24 := by
  rw [BitVec.toNat_ofNat]
  omega

/-- Byte 3 holds the temperature's seven low bits above the loopback bit. -/
theorem loopbackByte_toNat (lb : Bool) (c : Word) :
    (BitVec.ofNat 8 (lb.toNat + c.toNat % 2 ^ 7 * 2)).toNat = lb.toNat + c.toNat % 2 ^ 7 * 2 := by
  have hlb := flag_le lb
  rw [BitVec.toNat_ofNat]
  omega

theorem loopbackByte_getLsbD_zero (lb : Bool) (c : Word) :
    (BitVec.ofNat 8 (lb.toNat + c.toNat % 2 ^ 7 * 2)).getLsbD 0 = lb := by
  rw [BitVec.getLsbD, loopbackByte_toNat, Nat.testBit_zero]
  cases lb <;> simp

theorem loopbackByte_div_two (lb : Bool) (c : Word) :
    (BitVec.ofNat 8 (lb.toNat + c.toNat % 2 ^ 7 * 2)).toNat / 2 = c.toNat % 2 ^ 7 := by
  have hlb := flag_le lb
  rw [loopbackByte_toNat]
  omega

/-- Settles O21: the bytes of each field, put together, are the truncated operand. -/
theorem statusRoundTrip : Obligations.StatusRoundTrip := by
  intro u lb c v a len s s'
  refine ⟨_, exec_buildStatus_bytes .., ?_⟩
  simp only [exec_parseStatus_bytes, State.drive_out, read_payloadOfBytes, Nat.reduceLT, if_true, statusBytes,
    List.getD_cons_zero, List.getD_cons_succ, two_bytes_eq_mod, two_bytes_add_third_eq_mod,
    loopbackByte_getLsbD_zero, loopbackByte_div_two]
  rfl

/-- Settles O19: byte 3 holds the temperature's low seven bits, which no check reads, and PARSE_STATUS drives that byte
shifted right by one. -/
theorem temperatureIsSevenBitUnsigned : Obligations.TemperatureIsSevenBitUnsigned := by
  have hcongr : ∀ (u : Word) (lb : Bool) (c c' v a : Word) (s : State), c.toNat % 2 ^ 7 = c'.toNat % 2 ^ 7 →
      exec (.buildStatus u lb c v a) s = exec (.buildStatus u lb c' v a) s := by
    intro u lb c c' v a s hc
    rw [exec_buildStatus_bytes, exec_buildStatus_bytes, statusBytes_congr lb rfl hc rfl rfl]
  refine ⟨fun u lb c v a s => ⟨_, exec_buildStatus_bytes .., ?_⟩, hcongr,
    fun u lb v a s => hcongr u lb _ _ v a s (by decide), fun p len s => ⟨_, exec_parseStatus_bytes .., ?_⟩⟩
  · rw [State.drive_out, read_payloadOfBytes]
    exact loopbackByte_div_two lb c
  · have hlt := (Memory.read p 3).isLt
    have hfield : (BitVec.ofNat 32 ((Memory.read p 3).toNat / 2)).toNat = (Memory.read p 3).toNat / 2 := by
      rw [BitVec.toNat_ofNat]
      omega
    refine ⟨hfield, ?_⟩
    rw [State.drive_out, hfield]
    omega

end Sys2Proof.Machine
end

section
/-! PROOFS of 43_control.md: BUILD_CONTROL drives one byte that holds the two flags (R160), PARSE_CONTROL reads bits 0 and
1 of byte 0 (R170), and these are the builder's flags (R171). -/

namespace Sys2Proof.Machine

/-! ## The byte BUILD_CONTROL drives -/

section
variable (reset canLoopback : Bool)

theorem controlByte_eq_ofNat :
    controlByte reset canLoopback = BitVec.ofNat 8 (reset.toNat + canLoopback.toNat * 2) := by
  rw [← controlByte_toNat, BitVec.ofNat_toNat, BitVec.setWidth_eq]

theorem read_controlArray_zero : Memory.read (controlArray reset canLoopback) 0 = controlByte reset canLoopback := by
  refine BitVec.eq_of_toNat_eq ((read_writeLE_toNat (j := 0) rfl (by decide) (by decide)).trans ?_)
  rw [BitVec.toNat_setWidth_of_le (by decide), Nat.mul_zero, Nat.pow_zero, Nat.div_one, Nat.mod_eq_of_lt (BitVec.isLt _)]

/-- The write drives the flag byte and no other. -/
theorem controlArray_eq_payloadOfBytes : controlArray reset canLoopback =
    payloadOfBytes [BitVec.ofNat 8 (reset.toNat + canLoopback.toNat * 2)] := by
  refine eq_payloadOfBytes (wf_controlArray ..) fun a _ => ?_
  cases a with
  | zero => rw [read_controlArray_zero, controlByte_eq_ofNat, List.getD_cons_zero]
  | succ a => rw [read_controlArray_of_ge (Nat.succ_pos a), List.getD_cons_succ, List.getD_nil]

theorem exec_buildControl_bytes (s : State) :
    exec (.buildControl reset canLoopback) s = .next (s.drive { Outputs.zero with
      word := 0x00000041
      p := payloadOfBytes [BitVec.ofNat 8 (reset.toNat + canLoopback.toNat * 2)]
      len := 1
      err := 0 }) := by
  rw [exec_buildControl, headerWord_control, controlArray_eq_payloadOfBytes]
  rfl

end

/-- Settles O22: `op` 5 selects BUILD_CONTROL, whose one write drives the flag byte. -/
theorem buildControlFrame : Obligations.BuildControlFrame := by
  refine ⟨fun t => ?_, exec_buildControl_bytes⟩
  obtain ⟨-, -, -, -, -, hbuildControl, -⟩ := opSelectsOperation t
  exact hbuildControl

/-! ## The flags PARSE_CONTROL reads -/

theorem exec_parseControl_bits (p : Memory) (len : BitVec 4) (s : State) :
    exec (.parseControl p len) s = .next (s.drive { Outputs.zero with
      b0 := (Memory.read p 0).getLsbD 0
      b1 := (Memory.read p 0).getLsbD 1
      err := 0 }) := by
  have hreset : (Memory.readLE p 0 1).getLsbD 0 = (Memory.read p 0).getLsbD 0 :=
    Memory.getLsbD_readLE p 1 0 0 (by decide)
  have hcanLoopback : (Memory.readLE p 0 1).getLsbD 1 = (Memory.read p 0).getLsbD 1 :=
    Memory.getLsbD_readLE p 1 0 1 (by decide)
  rw [exec_parseControl, hreset, hcanLoopback]
  rfl

/-- Settles O23: `op` 6 selects PARSE_CONTROL, which reads the two flags off byte 0. -/
theorem parseControlFlags : Obligations.ParseControlFlags := by
  refine ⟨fun t => ?_, exec_parseControl_bits⟩
  obtain ⟨-, -, -, -, -, -, hparseControl, -⟩ := opSelectsOperation t
  exact hparseControl

/-! ## What the parser makes of a built payload -/

theorem controlByte_getLsbD_zero (reset canLoopback : Bool) : (controlByte reset canLoopback).getLsbD 0 = reset := by
  cases reset <;> cases canLoopback <;> rfl

theorem controlByte_getLsbD_one (reset canLoopback : Bool) :
    (controlByte reset canLoopback).getLsbD 1 = canLoopback := by
  cases reset <;> cases canLoopback <;> rfl

/-- Settles O24: byte 0 of the built payload is the flag byte, whose bits 0 and 1 are the flags. -/
theorem controlRoundTrip : Obligations.ControlRoundTrip := by
  intro reset canLoopback len s s'
  refine ⟨_, exec_buildControl .., ?_⟩
  rw [exec_parseControl_bits, State.drive_out, read_controlArray_zero, controlByte_getLsbD_zero,
    controlByte_getLsbD_one]
  rfl

end Sys2Proof.Machine
end

section
/-! PROOFS of 44_distance.md: BUILD_DISTANCE drives the layout's bytes for either offset, each the low bits of its operand
(R180, R181, R184), and PARSE_DISTANCE reads the fields off the bytes at the same offset (R190), which hold the two values
the builder wrote (R191). -/

namespace Sys2Proof.Machine

/-! ## The bytes BUILD_DISTANCE drives -/

/-- The two bytes of the distance by plain arithmetic on the operand (R71). -/
def distanceFieldBytes (distance : Word) : List Byte :=
  [BitVec.ofNat 8 distance.toNat, BitVec.ofNat 8 (distance.toNat / 2 ^ 8)]

/-- The four bytes of W1, the lux and the two flags, by plain arithmetic on the operands (R71). -/
def luxFlagsBytes (lux : Word) (overRange sensorOk : Bool) : List Byte :=
  [BitVec.ofNat 8 lux.toNat, BitVec.ofNat 8 (lux.toNat / 2 ^ 8), BitVec.ofNat 8 (lux.toNat / 2 ^ 16),
   BitVec.ofNat 8 (lux.toNat / 2 ^ 24 % 2 ^ 6 + overRange.toNat * 2 ^ 6 + sensorOk.toNat * 2 ^ 7)]

/-- The bytes of the Distance payload, with padding before W1 when the offset is 4 (R71). -/
def distanceBytes (o : DistWordOffset) (distance lux : Word) (overRange sensorOk : Bool) : List Byte :=
  distanceFieldBytes distance ++ (if o = .four then [0, 0] else []) ++ luxFlagsBytes lux overRange sensorOk

/-- The array after its first write, the distance at bytes 0 and 1, is in canonical form. -/
theorem wf_distanceField (d : Word) : Memory.wf (Memory.writeLE [] 0 2 (d.setWidth 64)) = true :=
  Memory.wf_writeLE rfl (by decide)

section
variable (o : DistWordOffset) (d l : Word) (overRange sensorOk : Bool)

/-- Below the offset the array is as its first write leaves it. -/
theorem read_distanceArray_of_lt {a : Nat} (ha : a < offsetOf o) :
    Memory.read (distanceArray o d l overRange sensorOk) a =
      Memory.read (Memory.writeLE [] 0 2 (d.setWidth 64)) a :=
  Memory.read_writeLE_of_lt (wf_distanceField d) (offsetOf_le o).2 ha

/-- Bytes 0 and 1 are the distance's. -/
theorem read_distanceArray_distance (j : Nat) (hj : j < 2) :
    Memory.read (distanceArray o d l overRange sensorOk) j = (distanceFieldBytes d).getD j 0 := by
  have hbyte := read_writeLE_toNat (v := d.setWidth 64) Memory.wf_nil (i := 0) (by decide) hj
  rw [Nat.zero_add, BitVec.toNat_setWidth_of_le (by decide)] at hbyte
  rw [read_distanceArray_of_lt _ _ _ _ _ (Nat.lt_of_lt_of_le hj (offsetOf_le o).1)]
  refine BitVec.eq_of_toNat_eq (hbyte.trans ?_)
  match j with
  | 0 => simp [distanceFieldBytes]
  | 1 => simp [distanceFieldBytes]

/-- The bytes between the distance and the offset are 0. -/
theorem read_distanceArray_padding {a : Nat} (ha : 2 ≤ a) (hoff : a < offsetOf o) :
    Memory.read (distanceArray o d l overRange sensorOk) a = 0 := by
  rw [read_distanceArray_of_lt _ _ _ _ _ hoff, Memory.read_writeLE_of_ge rfl (by decide) ha, Memory.read_nil]

/-- The four bytes from the offset on are W1's. -/
theorem read_distanceArray_word (j : Nat) (hj : j < 4) :
    Memory.read (distanceArray o d l overRange sensorOk) (offsetOf o + j) =
      (luxFlagsBytes l overRange sensorOk).getD j 0 := by
  have hflag := flag_le overRange
  have hflag' := flag_le sensorOk
  have hbyte := read_writeLE_toNat (v := (distanceWord l overRange sensorOk).setWidth 64) (wf_distanceField d)
    (offsetOf_le o).2 hj
  rw [BitVec.toNat_setWidth_of_le (by decide), distanceWord_toNat] at hbyte
  refine BitVec.eq_of_toNat_eq (hbyte.trans ?_)
  match j with
  | 0 => simp [luxFlagsBytes]; omega
  | 1 => simp [luxFlagsBytes]; omega
  | 2 => simp [luxFlagsBytes]; omega
  | 3 => simp [luxFlagsBytes]; omega

/-- The writes drive the layout table's bytes, at either offset. -/
theorem distanceArray_eq_payloadOfBytes : distanceArray o d l overRange sensorOk =
    payloadOfBytes (distanceBytes o d l overRange sensorOk) := by
  have hdistance := read_distanceArray_distance o d l overRange sensorOk
  have hpadding := @read_distanceArray_padding o d l overRange sensorOk
  have hword := read_distanceArray_word o d l overRange sensorOk
  refine eq_payloadOfBytes (wf_distanceArray ..) fun i hi => ?_
  cases o with
  | two =>
    match i with
    | 0 => exact hdistance 0 (by decide)
    | 1 => exact hdistance 1 (by decide)
    | 2 => exact hword 0 (by decide)
    | 3 => exact hword 1 (by decide)
    | 4 => exact hword 2 (by decide)
    | 5 => exact hword 3 (by decide)
    | i + 6 => exact read_distanceArray_of_ge (Nat.le_add_left 6 i)
  | four =>
    match i with
    | 0 => exact hdistance 0 (by decide)
    | 1 => exact hdistance 1 (by decide)
    | 2 => exact hpadding (by decide) (by decide)
    | 3 => exact hpadding (by decide) (by decide)
    | 4 => exact hword 0 (by decide)
    | 5 => exact hword 1 (by decide)
    | 6 => exact hword 2 (by decide)
    | 7 => exact hword 3 (by decide)

theorem exec_buildDistance_bytes (s : State) :
    exec (.buildDistance d l overRange sensorOk) s = .next (s.drive { Outputs.zero with
      word := 0x00000088
      p := payloadOfBytes (distanceBytes s.cfg.distWordOffset d l overRange sensorOk)
      len := if s.cfg.distWordOffset = .four then 8 else 6
      err := if d.toNat ≤ 300 ∧ l.toNat ≤ 100000 then 0 else 5 }) := by
  rw [exec_buildDistance, headerWord_distance, distanceArray_eq_payloadOfBytes, distLen_code, distanceError_eq]

end

/-- Only the low bits of the operands reach the payload (R181). -/
theorem distanceBytes_congr (o : DistWordOffset) {d d' l l' : Word} (overRange sensorOk : Bool)
    (hd : d.toNat % 2 ^ 16 = d'.toNat % 2 ^ 16) (hl : l.toNat % 2 ^ 30 = l'.toNat % 2 ^ 30) :
    distanceBytes o d l overRange sensorOk = distanceBytes o d' l' overRange sensorOk := by
  have hhigh : l.toNat / 2 ^ 24 % 2 ^ 6 = l'.toNat / 2 ^ 24 % 2 ^ 6 := by omega
  simp only [distanceBytes, distanceFieldBytes, luxFlagsBytes, hhigh, List.cons_append, List.cons.injEq,
    List.append_cancel_left_eq, ← BitVec.toNat_inj, BitVec.toNat_ofNat, and_true]
  omega

/-- Settles O25: `op` 7 selects BUILD_DISTANCE, whose writes drive the layout table's bytes. -/
theorem buildDistanceFrame : Obligations.BuildDistanceFrame := by
  refine ⟨fun t => ?_, exec_buildDistance_bytes⟩
  obtain ⟨-, -, -, -, -, -, -, hbuildDistance, -⟩ := opSelectsOperation t
  exact hbuildDistance

/-- Settles O26: the header word is fixed, the length reads the offset only, and the bytes read the offset and the
truncated operands only. -/
theorem distanceFailOpen : Obligations.DistanceFailOpen := by
  intro d d' l l' overRange sensorOk s s' hcfg hd hl
  refine ⟨_, _, exec_buildDistance_bytes .., exec_buildDistance_bytes .., rfl, ?_, ?_⟩
  · rw [State.drive_out, State.drive_out, distanceBytes_congr _ overRange sensorOk hd hl, hcfg]
  · rw [State.drive_out, State.drive_out, hcfg]

/-- Settles O27: with the lux in range the code is the distance check's alone. -/
theorem distanceBoundIs300 : Obligations.DistanceBoundIs300 := by
  intro d l overRange sensorOk s hl
  refine ⟨_, exec_buildDistance_bytes .., ?_⟩
  rw [State.drive_out]
  by_cases hd : d.toNat ≤ 300 <;> simp [hd, hl]

/-! ## The fields PARSE_DISTANCE reads -/

theorem offsetOf_eq (o : DistWordOffset) : offsetOf o = if o = .four then 4 else 2 := by
  cases o <;> rfl

/-- W1's bits 29:0 are its first three bytes and bits 5:0 of its last. -/
theorem fieldWord_lux (p : Memory) (i : Nat) : fieldWord 0 30 (Memory.readLE p i 4) = BitVec.ofNat 32
    ((Memory.read p i).toNat + (Memory.read p (i + 1)).toNat * 2 ^ 8 + (Memory.read p (i + 2)).toNat * 2 ^ 16 +
      (Memory.read p (i + 3)).toNat % 2 ^ 6 * 2 ^ 24) := by
  rw [fieldWord_eq_ofNat _ _ _ (by decide), readLE_four_toNat]
  congr 1
  omega

/-- The fields off their own bytes: bits 30 and 31 of W1 are bits 6 and 7 of its last byte. -/
theorem exec_parseDistance_bytes (p : Memory) (len : BitVec 4) (s : State) (o : Nat)
    (ho : o = if s.cfg.distWordOffset = .four then 4 else 2) :
    exec (.parseDistance p len) s = .next (s.drive { Outputs.zero with
      f0 := BitVec.ofNat 32 ((Memory.read p 0).toNat + (Memory.read p 1).toNat * 2 ^ 8)
      f1 := BitVec.ofNat 32 ((Memory.read p o).toNat + (Memory.read p (o + 1)).toNat * 2 ^ 8 +
        (Memory.read p (o + 2)).toNat * 2 ^ 16 + (Memory.read p (o + 3)).toNat % 2 ^ 6 * 2 ^ 24)
      b0 := (Memory.read p (o + 3)).getLsbD 6
      b1 := (Memory.read p (o + 3)).getLsbD 7
      err := 0 }) := by
  have hoverRange : (Memory.readLE p o 4).getLsbD 30 = (Memory.read p (o + 3)).getLsbD 6 :=
    Memory.getLsbD_readLE p 4 o 30 (by decide)
  have hsensorOk : (Memory.readLE p o 4).getLsbD 31 = (Memory.read p (o + 3)).getLsbD 7 :=
    Memory.getLsbD_readLE p 4 o 31 (by decide)
  rw [exec_parseDistance, offsetOf_eq, ← ho, fieldWord_readLE_two, fieldWord_lux, hoverRange, hsensorOk]
  rfl

/-- Settles O28: `op` 8 selects PARSE_DISTANCE, whose fields are read off their own bytes. -/
theorem parseDistanceFields : Obligations.ParseDistanceFields := by
  refine ⟨fun t => ?_, exec_parseDistance_bytes⟩
  obtain ⟨-, -, -, -, -, -, -, -, hparseDistance, -⟩ := opSelectsOperation t
  exact hparseDistance

/-! ## What the parser makes of a built payload -/

section
variable (o : DistWordOffset) (d l : Word) (overRange sensorOk : Bool)

/-- MemRead(0, 2) of a built payload is the distance's low 16 bits: the later writes start at the offset. -/
theorem readLE_distanceArray_distance :
    Memory.readLE (distanceArray o d l overRange sensorOk) 0 2 = (d.setWidth 16).setWidth 64 := by
  have hfirst : Memory.readLE (distanceArray o d l overRange sensorOk) 0 2 =
      Memory.readLE (Memory.writeLE [] 0 2 (d.setWidth 64)) 0 2 :=
    Memory.readLE_congr fun _ _ ha => read_distanceArray_of_lt _ _ _ _ _ (Nat.lt_of_lt_of_le ha (offsetOf_le o).1)
  rw [hfirst, Memory.readLE_writeLE rfl (by decide), BitVec.setWidth_setWidth_of_le d (by decide : 8 * 2 ≤ 64)]

/-- MemRead(O, 4) of a built payload is W1. -/
theorem readLE_distanceArray_word : Memory.readLE (distanceArray o d l overRange sensorOk) (offsetOf o) 4 =
    (distanceWord l overRange sensorOk).setWidth 64 := by
  rw [distanceArray, Memory.readLE_writeLE (wf_distanceField d) (offsetOf_le o).2,
    BitVec.setWidth_setWidth_of_le _ (by decide : 8 * 4 ≤ 64), BitVec.setWidth_eq]

theorem fieldWord_distance : fieldWord 0 16 ((d.setWidth 16).setWidth 64) = BitVec.ofNat 32 (d.toNat % 2 ^ 16) := by
  rw [fieldWord_eq_ofNat _ _ _ (by decide), BitVec.toNat_setWidth_of_le (by decide), BitVec.toNat_setWidth, Nat.pow_zero,
    Nat.div_one, Nat.mod_mod]

theorem fieldWord_distanceWord : fieldWord 0 30 ((distanceWord l overRange sensorOk).setWidth 64) =
    BitVec.ofNat 32 (l.toNat % 2 ^ 30) := by
  rw [fieldWord_eq_ofNat _ _ _ (by decide), BitVec.toNat_setWidth_of_le (by decide), distanceWord_toNat]
  congr 1
  omega

theorem distanceWord_getLsbD_overRange :
    ((distanceWord l overRange sensorOk).setWidth 64).getLsbD 30 = overRange := by
  simp [distanceWord, flagWord]

theorem distanceWord_getLsbD_sensorOk :
    ((distanceWord l overRange sensorOk).setWidth 64).getLsbD 31 = sensorOk := by
  simp [distanceWord, flagWord]

end

/-- Settles O29: the parser's two reads cover the builder's two writes, so each field is the truncated operand. -/
theorem distanceRoundTrip : Obligations.DistanceRoundTrip := by
  intro d l overRange sensorOk len s s' hcfg
  refine ⟨_, exec_buildDistance .., ?_⟩
  rw [exec_parseDistance, State.drive_out, ← hcfg, readLE_distanceArray_distance, readLE_distanceArray_word,
    fieldWord_distance, fieldWord_distanceWord, distanceWord_getLsbD_overRange, distanceWord_getLsbD_sensorOk]
  rfl

end Sys2Proof.Machine
end

section
/-! PROOFS of 60_exceptions.md: the parsers and BUILD_CONTROL check no operand, so in every state, whatever its table and
parameter hold, they drive the code of NoError (R172, R204). -/

namespace Sys2Proof.Machine

/-- Settles O34: each of the four meanings drives the constant NoError, whose code is 0 (R66), by its equation. -/
theorem parsersAndControlNeverFail : Obligations.ParsersAndControlNeverFail := by
  have hcode : errorCode .noError = 0 := rfl
  refine ⟨fun p len s => ⟨?parseStatus, ?parseControl, ?parseDistance⟩, fun reset canLoopback s => ?buildControl⟩
  case parseStatus => exact ⟨_, exec_parseStatus p len s, hcode⟩
  case parseControl => exact ⟨_, exec_parseControl p len s, hcode⟩
  case parseDistance => exact ⟨_, exec_parseDistance p len s, hcode⟩
  case buildControl => exact ⟨_, exec_buildControl reset canLoopback s, hcode⟩

end Sys2Proof.Machine
end

section
/-! PROOFS of 70_reset_and_hazards.md: the reset state has the hardwired table and the default parameter, and of the unit
nothing else reaches a transaction's outputs (R28), so the first transaction is like any later one (R230). -/

namespace Sys2Proof.Machine

/-- On units with the same table and parameter, a transaction gives the same outputs, whatever stood on their ports. -/
theorem outputsOf_transact_congr {s s' : State} (hkinds : s.validKinds = s'.validKinds) (hcfg : s.cfg = s'.cfg)
    (t : Inputs) : outputsOf (transact s t) = outputsOf (transact s' t) :=
  outputsDependOnlyOnInputs (s.present t) (s'.present t) hkinds hcfg rfl

/-- Settles O41: a unit with the hardwired table and the default parameter agrees with the reset state on both, so the
transaction's outputs agree. -/
theorem firstTransactionIsLikeAnyOther : Obligations.FirstTransactionIsLikeAnyOther := by
  obtain ⟨hreset, -, -⟩ := constantTableIsReadOnly
  refine ⟨hreset, fun s t htable hcfg => ?_⟩
  have hkinds : State.reset.validKinds = s.validKinds := State.reset_validKinds.trans htable.symm
  have hparam : State.reset.cfg = s.cfg := State.reset_cfg.trans hcfg.symm
  exact outputsOf_transact_congr hkinds hparam t

end Sys2Proof.Machine
end

section
/-! PROOFS of 30_encoding.md sections 1, 2 and 8: decode undoes encode, and encoding a decoded transaction restores the ports
its line lists. Together they say that no unlisted port reaches the decoder (R60, R62, R78). -/

namespace Sys2Proof

/-- The per-instruction laws of Laws/PerInstr.lean, for every instruction. -/
theorem decode_encode (i : Instr) : decode (encode i) = .ok i := by
  cases i with
  | encode => exact Laws.EncodeDecode.encode ..
  | decode => exact Laws.EncodeDecode.decode ..
  | identify => exact Laws.EncodeDecode.identify ..
  | buildStatus => exact Laws.EncodeDecode.buildStatus ..
  | parseStatus => exact Laws.EncodeDecode.parseStatus ..
  | buildControl => exact Laws.EncodeDecode.buildControl ..
  | parseControl => exact Laws.EncodeDecode.parseControl ..
  | buildDistance => exact Laws.EncodeDecode.buildDistance ..
  | parseDistance => exact Laws.EncodeDecode.parseDistance ..

theorem encode_op_lt (i : Instr) : (encode i).op.toNat < 9 :=
  (decode_ok_iff (encode i)).1 ⟨i, decode_encode i⟩

/-- The payload a transaction presents is the one its instruction carries, or none. -/
theorem wf_encode_payload (i : Instr) : Memory.wf (encode i).p = i.wf := by
  cases i <;> rfl

/-- A well-formed instruction's encoding is a transaction a host may present (R236, R238). -/
theorem encode_wf {i : Instr} (h : i.wf = true) : (encode i).wf = true := by
  rw [Inputs.wf, wf_encode_payload, h, Bool.and_true, decide_eq_true_eq]
  exact Nat.le_of_lt_succ (encode_op_lt i)

theorem encode_of_decode {t : Inputs} {i : Instr} (h : decode t = .ok i) : encode i = listedInputs t := by
  have hop := opOf_of_decode h
  unfold decode at h
  split at h <;> cases h
  all_goals simp only [encode, listedInputs, *]

theorem listedInputs_op (t : Inputs) : (listedInputs t).op = t.op := by
  unfold listedInputs
  split <;> rfl

/-- The decoder reads no port that the transaction's line does not list. -/
theorem decode_listedInputs (t : Inputs) : decode (listedInputs t) = decode t := by
  by_cases hlt : t.op.toNat < 9
  · obtain ⟨i, hi⟩ := (decode_ok_iff t).2 hlt
    rw [← encode_of_decode hi, decode_encode, hi]
  · have hreserved : 9 ≤ t.op.toNat := Nat.le_of_not_lt hlt
    rw [decode_reserved hreserved, decode_reserved (by rwa [listedInputs_op]), listedInputs_op]

/-- Settles O5: decode undoes encode, which fills the listed ports only, and decode reads no other. -/
theorem decodeEncodeAgree : Obligations.DecodeEncodeAgree := by
  refine ⟨fun i hi => ⟨decode_encode i, encode_wf hi⟩, fun _ _ => encode_of_decode, fun t t' h => ?_⟩
  calc decode t = decode (listedInputs t) := (decode_listedInputs t).symm
    _ = decode (listedInputs t') := congrArg decode h
    _ = decode t' := decode_listedInputs t'

/-- Settles O4: six closed evaluations of the decoder. -/
theorem writtenWordsDecode : Obligations.WrittenWordsDecode := by
  unfold Obligations.WrittenWordsDecode
  decide

end Sys2Proof
end

section
/-! PROOFS about one step (00_scope.md R13, 20_memory.md R46, 30_encoding.md R61): it runs the decoded instruction, which
always completes and drives the output ports only, or refuses a reserved `op`. -/

namespace Sys2Proof.Machine

/-- Settles O2: `step` is `exec` of what the inputs decode to. -/
theorem stepRunsDecodedInstruction : Obligations.StepRunsDecodedInstruction := fun _ _ => step_of_decode

/-- Settles O3: a reserved `op` is rejected by the decoder, and the refusal carries its name. -/
theorem reservedOpIsRefused : Obligations.ReservedOpIsRefused := fun _ hop => step_of_decode_error (decode_reserved hop)

/-- A step on an `op` that is not reserved completes, and changes the output ports only. -/
theorem step_drives {s : State} (hop : s.inp.op.toNat < 9) : ∃ o, step s = .next (s.drive o) := by
  obtain ⟨i, hi⟩ := (decode_ok_iff s.inp).2 hop
  rw [step_of_decode hi]
  exact exec_drives i s

/-- Settles O6: the two cases of `op` are the two things a step can do. -/
theorem everyDefinedOperationCompletes : Obligations.EveryDefinedOperationCompletes := by
  intro s
  by_cases hop : s.inp.op.toNat < 9
  · obtain ⟨o, ho⟩ := step_drives hop
    rw [ho]
    exact ⟨⟨fun _ => hop, fun _ => ⟨_, rfl⟩⟩, nofun, nofun⟩
  · rw [reservedOpIsRefused s (Nat.le_of_not_lt hop)]
    refine ⟨⟨fun ⟨_, ht⟩ => (nomatch ht), fun h => absurd h hop⟩, nofun, fun r hr => ?_⟩
    cases hr
    rfl

/-- A completed step is its outputs driven on the state it started from. -/
theorem step_next {s t : State} (h : step s = .next t) : t = s.drive t.out := by
  obtain ⟨i, hi⟩ := exec_of_step_next h
  exact exec_next hi

/-- A step is known from its outputs. -/
theorem step_of_outputsOf {s : State} {o : Outputs} (h : outputsOf (step s) = some o) : step s = .next (s.drive o) := by
  cases hs : step s with
  | next t =>
    rw [hs] at h
    cases h
    rw [← step_next hs]
  | fault => rw [hs] at h; cases h
  | refused => rw [hs] at h; cases h

/-- Settles O42: a completed step is the state with outputs driven. -/
theorem stepChangesOnlyOutputs : Obligations.StepChangesOnlyOutputs := by
  intro s t h
  rw [step_next h]
  exact ⟨rfl, rfl, rfl⟩

/-- Settles O43: the second step starts from the same table, parameter and inputs, so it drives the outputs that already
stand on the ports. -/
theorem transactionIsIdempotent : Obligations.TransactionIsIdempotent := by
  intro s t h
  obtain ⟨hkinds, hcfg, hinp⟩ := stepChangesOnlyOutputs s t h
  have houtputs : outputsOf (step t) = some t.out :=
    (outputsDependOnlyOnInputs t s hkinds hcfg hinp).trans (congrArg outputsOf h)
  exact step_of_outputsOf houtputs

end Sys2Proof.Machine
end

section
/-! PROOFS of the machine's invariant (10_state.md section 1, 30_encoding.md R64, R66, R67, R76): whatever an instruction
drives is sound, and a step changes nothing else. -/

namespace Sys2Proof.Machine

/-- What is known of one next state of an instruction is known of every one: there is only one. -/
theorem of_exec_next {i : Instr} {s t : State} {P : State → Prop} (h : ∃ t, exec i s = .next t ∧ P t)
    (ht : exec i s = .next t) : P t := by
  obtain ⟨t', ht', hP⟩ := h
  cases ht.symm.trans ht'
  exact hP

/-- An output payload is one of the builders' arrays, or lists nothing. -/
theorem exec_payload_wf (i : Instr) (s : State) : ∃ t, exec i s = .next t ∧ Memory.wf t.out.p = true := by
  cases i with
  | encode => exact ⟨_, exec_encode .., Memory.wf_nil⟩
  | decode => exact ⟨_, exec_decode .., Memory.wf_nil⟩
  | identify => exact ⟨_, exec_identify .., Memory.wf_nil⟩
  | buildStatus => exact ⟨_, exec_buildStatus .., wf_statusArray ..⟩
  | parseStatus => exact ⟨_, exec_parseStatus .., Memory.wf_nil⟩
  | buildControl => exact ⟨_, exec_buildControl .., wf_controlArray ..⟩
  | parseControl => exact ⟨_, exec_parseControl .., Memory.wf_nil⟩
  | buildDistance => exact ⟨_, exec_buildDistance .., wf_distanceArray ..⟩
  | parseDistance => exact ⟨_, exec_parseDistance .., Memory.wf_nil⟩

theorem exec_tail_zero (i : Instr) (s : State) :
    ∃ t, exec i s = .next t ∧ ∀ a, t.out.len.toNat ≤ a → Memory.read t.out.p a = 0 := by
  obtain ⟨t, ht, htail, -⟩ := unnamedOutputsAreZero i s
  exact ⟨t, ht, htail⟩

theorem exec_len_le (i : Instr) (s : State) : ∃ t, exec i s = .next t ∧ t.out.len.toNat ≤ 8 := by
  obtain ⟨t, ht, hlen, -⟩ := declaredLengths i s
  exact ⟨t, ht, hlen⟩

theorem reportedCode_le (i : Instr) : (reportedCode i).toNat ≤ 5 := by
  obtain ⟨hsix, hseven⟩ := reportedCode_ne_six_seven i
  have hlt := (reportedCode i).isLt
  simp only [ne_eq, ← BitVec.toNat_inj, BitVec.reduceToNat] at hsix hseven
  omega

/-- What `out.kind` may report: a 5-bit kind, or 254 for Unknown (R67). -/
def IsReportedKind (k : BitVec 8) : Prop := k.toNat < 2 ^ 5 ∨ k = 254

theorem isReportedKind_setWidth (k : BitVec 5) : IsReportedKind (k.setWidth 8) := by
  left
  rw [BitVec.toNat_setWidth_of_le (by decide)]
  exact k.isLt

theorem isReportedKind_reportedKind (validKinds : List (BitVec 5)) (k : BitVec 5) :
    IsReportedKind (reportedKind validKinds k) := by
  rw [reportedKind]
  split
  · exact isReportedKind_setWidth k
  · exact .inr rfl

/-- DECODE and IDENTIFY report a kind, and the other operations drive 0. -/
theorem exec_isReportedKind (i : Instr) (s : State) : ∃ t, exec i s = .next t ∧ IsReportedKind t.out.kind := by
  have hzero : IsReportedKind 0 := .inl (by decide)
  cases i with
  | encode => exact ⟨_, exec_encode .., hzero⟩
  | decode => exact ⟨_, exec_decode .., isReportedKind_setWidth _⟩
  | identify => exact ⟨_, exec_identify .., isReportedKind_reportedKind _ _⟩
  | buildStatus => exact ⟨_, exec_buildStatus .., hzero⟩
  | parseStatus => exact ⟨_, exec_parseStatus .., hzero⟩
  | buildControl => exact ⟨_, exec_buildControl .., hzero⟩
  | parseControl => exact ⟨_, exec_parseControl .., hzero⟩
  | buildDistance => exact ⟨_, exec_buildDistance .., hzero⟩
  | parseDistance => exact ⟨_, exec_parseDistance .., hzero⟩

theorem exec_outputsSound {i : Instr} {s t : State} (hs : s.TableHardwired) (h : exec i s = .next t) :
    OutputsSound t.out where
  payload_wf := of_exec_next (exec_payload_wf i s) h
  len_le := of_exec_next (exec_len_le i s) h
  tail_zero := of_exec_next (exec_tail_zero i s) h
  err_produced := by
    rw [of_exec_next (exec_err i hs) h]
    exact reportedCode_le i
  word_reserved := of_exec_next (exec_word_lt i s) h
  kind_reported := of_exec_next (exec_isReportedKind i s) h

/-- Settles O44: the step ran an instruction, whose outputs are sound on a hardwired table, and it left the table and the
presented payload. -/
theorem stepKeepsSound : Obligations.StepKeepsSound := by
  intro s t hs h
  obtain ⟨hkinds, -, hinp⟩ := stepChangesOnlyOutputs s t h
  obtain ⟨i, hi⟩ := exec_of_step_next h
  exact ⟨hkinds.trans hs.table, hinp ▸ hs.payload, exec_outputsSound hs.table hi⟩

/-- Settles O45: one step from reset drives the outputs that stand there (log 3), so they are an instruction's. -/
theorem resetIsSound : Obligations.ResetIsSound :=
  ⟨State.reset_validKinds, Memory.wf_nil, exec_outputsSound State.reset_validKinds (exec_encode 0 0 0 State.reset)⟩

end Sys2Proof.Machine
end

section
/-! PROOFS of 20_memory.md section 2: a parser's result is made of its multi-byte reads, which see only the bytes they
cover. -/

namespace Sys2Proof.Machine

/-- Settles O38: the reads of each parser cover its listed bytes. -/
theorem parsersReadOnlyListedBytes : Obligations.ParsersReadOnlyListedBytes := by
  intro p q len s o ho
  refine ⟨fun h => ?status, fun h => ?control, fun h => ?distance⟩
  case status =>
    have hword : Memory.readLE p 0 4 = Memory.readLE q 0 4 := Memory.readLE_congr fun a _ _ => h a (by omega)
    have hvoltage : Memory.readLE p 4 2 = Memory.readLE q 4 2 := Memory.readLE_congr fun a _ _ => h a (by omega)
    have hadc : Memory.readLE p 6 2 = Memory.readLE q 6 2 := Memory.readLE_congr fun a _ _ => h a (by omega)
    rw [exec_parseStatus, exec_parseStatus, hword, hvoltage, hadc]
  case control => rw [exec_parseControl_bits, exec_parseControl_bits, h]
  case distance =>
    have hdistance : Memory.readLE p 0 2 = Memory.readLE q 0 2 := Memory.readLE_congr fun a _ _ => h a (by omega)
    have hword : Memory.readLE p o 4 = Memory.readLE q o 4 := Memory.readLE_congr fun a hlo hhi => h a (.inr ⟨hlo, hhi⟩)
    rw [exec_parseDistance, exec_parseDistance, offsetOf_eq, ← ho, hdistance, hword]

end Sys2Proof.Machine
end

section
/-! PROOFS about the host's side of one unit (41_registry_dispatch.md R123, 70_reset_and_hazards.md section 2, log 13): the
frame a host transmits, the parser it issues after IDENTIFY, and a built frame received by another unit. -/

namespace Sys2Proof.Machine

/-! ## The transmitted frame -/

theorem length_frameOf_payload (o : Outputs) : (frameOf o).payload.length = o.len.toNat := by
  rw [frameOf, List.length_map, List.length_range]

theorem getElem?_frameOf_payload (o : Outputs) {a : Nat} (ha : a < o.len.toNat) :
    (frameOf o).payload[a]? = some (Memory.read o.p a) := by
  rw [frameOf, List.getElem?_map, List.getElem?_range ha, Option.map_some]

theorem strictFrame_eq_none_iff (o : Outputs) : strictFrame o = none ↔ o.err ≠ 0 := by
  rw [strictFrame]
  split
  · exact ⟨nofun, fun hne => absurd ‹o.err = errorCode .noError› hne⟩
  · exact ⟨fun _ => ‹o.err ≠ errorCode .noError›, fun _ => rfl⟩

/-- Settles O48: the frame lists one byte for each index below `out.len`, which no instruction drives above 8. -/
theorem transmittedFrameMatchesLength : Obligations.TransmittedFrameMatchesLength := by
  intro i s
  obtain ⟨t, ht, hlen⟩ := exec_len_le i s
  exact ⟨t, ht, rfl, rfl, length_frameOf_payload t.out, hlen, fun _ => getElem?_frameOf_payload t.out,
    strictFrame_eq_none_iff t.out⟩

/-- The receiver's payload is the sender's: the bytes that are not transmitted are 0 on both sides (R12, R78). -/
theorem payloadOfBytes_frameOf {i : Instr} {s t : State} (h : exec i s = .next t) :
    payloadOfBytes (frameOf t.out).payload = t.out.p := by
  have htail := of_exec_next (exec_tail_zero i s) h
  refine (eq_payloadOfBytes (of_exec_next (exec_payload_wf i s) h) fun a _ => ?_).symm
  rw [List.getD_eq_getElem?_getD]
  by_cases ha : a < t.out.len.toNat
  · rw [getElem?_frameOf_payload _ ha, Option.getD_some]
  · have hge := Nat.le_of_not_lt ha
    rw [htail a hge, List.getElem?_eq_none (by rwa [length_frameOf_payload]), Option.getD_none]

/-! ## Dispatch -/

/-- The parser of a message kind (R123). -/
def parserOf : MessageKind → Memory → BitVec 4 → Option Instr
  | .status, p, len => some (.parseStatus p len)
  | .control, p, len => some (.parseControl p len)
  | .distance, p, len => some (.parseDistance p len)
  | .unknown, _, _ => none

theorem dispatchParser_of_error {o : Outputs} (herr : o.err ≠ 0) (p : Memory) (len : BitVec 4) :
    dispatchParser o p len = none :=
  if_neg herr

/-- On NoError the host issues the parser of the reported kind. -/
theorem dispatchParser_of_kind {o : Outputs} (herr : o.err = 0) {k : MessageKind} (hkind : o.kind = kindCode k)
    (p : Memory) (len : BitVec 4) : dispatchParser o p len = parserOf k p len := by
  rw [dispatchParser, if_pos (show o.err = errorCode .noError from herr), hkind]
  cases k <;> rfl

/-- Settles O16: IDENTIFY on the hardwired table reports the kind of the word, whose parser the host issues. -/
theorem dispatchFollowsReportedKind : Obligations.DispatchFollowsReportedKind := by
  intro w s p len hs
  refine ⟨_, exec_identify_of_hardwired w hs, fun herr => dispatchParser_of_error herr p len, fun herr => ⟨?_, ?_, ?_⟩⟩
  · exact fun hkind => dispatchParser_of_kind (k := .status) herr (by rw [State.drive_out, hkind]; rfl) p len
  · exact fun hkind => dispatchParser_of_kind (k := .control) herr (by rw [State.drive_out, hkind]; rfl) p len
  · exact fun hkind => dispatchParser_of_kind (k := .distance) herr (by rw [State.drive_out, hkind]; rfl) p len

/-! ## A built frame at its receiver -/

theorem transact_encode (s : State) (i : Instr) : transact s (encode i) = exec i (s.present (encode i)) :=
  step_of_decode (decode_encode i)

/-- A header word between two different peers, of a kind with a wire code, passes IDENTIFY with that kind (R122). -/
theorem exec_identify_headerWord {source destination : DeviceId} {kind : MessageKind} (hids : source ≠ destination)
    (hkind : kind ≠ .unknown) {r : State} (hr : r.TableHardwired) :
    exec (.identify (headerWord source destination kind)) r = .next (r.drive { Outputs.zero with
      src := deviceCode source, dst := deviceCode destination, kind := kindCode kind, err := 0 }) := by
  rw [exec_identify, hr, headerWord, dec_enc]
  match source, destination, kind with
  | .sensorNode, .host, .status | .sensorNode, .host, .control | .sensorNode, .host, .distance => rfl
  | .host, .sensorNode, .status | .host, .sensorNode, .control | .host, .sensorNode, .distance => rfl

/-- The two transactions of a frame that is dispatched (R79). -/
theorem receiveFrame_dispatched {r r' r'' : State} {f : Frame} {i : Instr}
    (hidentify : transact r (encode (.identify f.word)) = .next r')
    (hdispatch : dispatchParser r'.out (payloadOfBytes f.payload) (BitVec.ofNat 4 f.len) = some i)
    (hparse : transact r' (encode i) = .next r'') : receiveFrame r f = .next (r'', [r'.out, r''.out]) := by
  simp only [receiveFrame, hidentify, hdispatch, hparse]

/-- A host that receives a frame whose word passes IDENTIFY hands the payload to the parser of the word's kind. -/
theorem receiveFrame_of_headerWord {source destination : DeviceId} {kind : MessageKind} {r : State} {f : Frame}
    {i : Instr} {o : Outputs} (hr : r.TableHardwired) (hword : f.word = headerWord source destination kind)
    (hids : source ≠ destination) (hparser : parserOf kind (payloadOfBytes f.payload) (BitVec.ofNat 4 f.len) = some i)
    (hparse : ∀ r' : State, r'.cfg = r.cfg → exec i r' = .next (r'.drive o)) :
    ∃ r' identified, receiveFrame r f = .next (r', [identified, r'.out]) ∧ identified.err = 0 ∧ r'.out = o := by
  have hkind : kind ≠ .unknown := by
    rintro rfl
    cases hparser
  have hidentify := (transact_encode r (.identify (headerWord source destination kind))).trans
    (exec_identify_headerWord hids hkind hr)
  rw [← hword] at hidentify
  exact ⟨_, _, receiveFrame_dispatched hidentify ((dispatchParser_of_kind rfl rfl _ _).trans hparser)
    ((transact_encode _ i).trans (hparse _ rfl)), rfl, rfl⟩

/-- A frame made by an instruction whose header word passes IDENTIFY reaches its parser with the payload it was made
with. -/
theorem receiveFrame_of_built {source destination : DeviceId} {kind : MessageKind} {b : Instr} {s r : State}
    {parse : Memory → BitVec 4 → Instr} {o : Outputs} (hr : r.TableHardwired)
    (hbuilt : ∃ t, exec b s = .next t ∧ t.out.word = headerWord source destination kind) (hids : source ≠ destination)
    (hparser : ∀ p len, parserOf kind p len = some (parse p len))
    (hround : ∀ (len : BitVec 4) (r' : State), r'.cfg = r.cfg →
      ∃ t, exec b s = .next t ∧ exec (parse t.out.p len) r' = .next (r'.drive o)) :
    ∃ t r' identified, exec b s = .next t ∧ receiveFrame r (frameOf t.out) = .next (r', [identified, r'.out]) ∧
      identified.err = 0 ∧ r'.out = o := by
  obtain ⟨t, ht, hword⟩ := hbuilt
  have hparse : ∀ r' : State, r'.cfg = r.cfg → exec (parse (payloadOfBytes (frameOf t.out).payload)
      (BitVec.ofNat 4 (frameOf t.out).len)) r' = .next (r'.drive o) := by
    intro r' hcfg
    rw [payloadOfBytes_frameOf ht]
    exact of_exec_next (hround _ r' hcfg) ht
  obtain ⟨r', identified, hreceived⟩ := receiveFrame_of_headerWord hr hword hids (hparser _ _) hparse
  exact ⟨t, r', identified, ht, hreceived⟩

/-- Settles O47: each builder's header word passes IDENTIFY and names its own parser, which reads the builder's
payload back (R151, R171, R191). -/
theorem builtFramesAreReceived : Obligations.BuiltFramesAreReceived := by
  intro s r hr hcfg
  refine ⟨fun u lb c v a => ?status, fun reset lb => ?control, fun d l overRange sensorOk => ?distance⟩
  case status =>
    exact receiveFrame_of_built hr ⟨_, exec_buildStatus .., rfl⟩ (by decide) (fun _ _ => rfl) fun len r' _ =>
      statusRoundTrip u lb c v a len s r'
  case control =>
    exact receiveFrame_of_built hr ⟨_, exec_buildControl .., rfl⟩ (by decide) (fun _ _ => rfl) fun len r' _ =>
      controlRoundTrip reset lb len s r'
  case distance =>
    exact receiveFrame_of_built hr ⟨_, exec_buildDistance .., rfl⟩ (by decide) (fun _ _ => rfl) fun len r' hr' =>
      distanceRoundTrip d l overRange sensorOk len s r' (hcfg.symm.trans hr'.symm)

end Sys2Proof.Machine
end

section
/-! PROOFS about sequences of transactions (10_state.md R28, 70_reset_and_hazards.md R239) and several units
(60_exceptions.md R214). -/

namespace Sys2Proof.Machine

/-- A transaction without a reserved `op` completes; it leaves the unit as it was but for its ports. -/
theorem transact_drives (s : State) {t : Inputs} (hop : t.op.toNat < 9) :
    ∃ o, transact s t = .next ((s.present t).drive o) :=
  step_drives (s := s.present t) hop

theorem runTransactions_cons {s s' s'' : State} {t : Inputs} {ts : List Inputs} {os : List Outputs}
    (h : transact s t = .next s') (hs : runTransactions s' ts = .next (s'', os)) :
    runTransactions s (t :: ts) = .next (s'', s'.out :: os) := by
  simp only [runTransactions, h, hs]

/-- Settles O46, by induction on the list: the rest runs on a unit with the same table and parameter, where each
transaction gives what it gives at the start. -/
theorem sequenceIsHistoryFree : Obligations.SequenceIsHistoryFree := by
  intro ts
  induction ts with
  | nil => exact fun s _ => ⟨s, [], rfl, rfl, rfl, rfl⟩
  | cons t ts ih =>
    intro s hops
    obtain ⟨hop, hops⟩ := List.forall_mem_cons.1 hops
    obtain ⟨o, ho⟩ := transact_drives s hop
    obtain ⟨s', os, hrun, hkinds, hcfg, hos⟩ := ih ((s.present t).drive o) hops
    have hhead : some o = outputsOf (transact s t) := (congrArg outputsOf ho).symm
    have htail : os.map some = ts.map fun t => outputsOf (transact s t) :=
      hos.trans (List.map_congr_left fun t' _ => outputsOf_transact_congr rfl rfl t')
    refine ⟨s', o :: os, runTransactions_cons ho hrun, hkinds, hcfg, ?_⟩
    rw [List.map_cons, List.map_cons, hhead, htail]

/-- Settles O49, by induction on the units before the one that transacts. -/
theorem unitsShareNothing : Obligations.UnitsShareNothing := by
  intro before after s t hop
  obtain ⟨o, ho⟩ := transact_drives s hop
  refine ⟨_, ho, ?_⟩
  induction before with
  | nil => simp only [List.nil_append, List.length_nil, transactAt, ho]
  | cons u before ih => simp only [List.cons_append, List.length_cons, transactAt, ih]

end Sys2Proof.Machine
end
